-- ==== Sys2Proof/Config.lean ====
section
/-! DEFINITION. The fixed sizes of the unit (00_scope.md R5, R6). The spec leaves nothing to an implementation and
nothing is a draw (00_scope.md R8), so there is no free value here: only named numbers, and the identity of the
hardware (R1, R2). -/

namespace Sys2Proof.Config

/-- Bytes in a Block (00_scope.md R5); also the largest source block length and the reset value of CNT. -/
@[simp] abbrev blockBytes : Nat := 8

/-- Bits in a byte (00_scope.md R5). -/
@[simp] abbrev byteBits : Nat := 8

/-- The largest padding amount, in bytes (00_scope.md R5). -/
@[simp] abbrev maxPadding : Nat := 7

/-- Base-4 digits in a Block, the terms of the parity sum (00_scope.md R5; 40_parity.md R70). -/
@[simp] abbrev parityDigits : Nat := 32

/-- Values a 4-bit immediate can encode: 0..15 (30_encoding.md R51, R53). -/
@[simp] abbrev immediateValues : Nat := 16

/-- Tokens of a Sentence (00_scope.md R5). -/
@[simp] abbrev sentenceSlots : Nat := 6

/-- What identifies the hardware (00_scope.md R1, R2). There is no ISA string, version number, part number or vendor:
the command set has one version only. -/
structure Identity where
  /-- The name the spec gives the hardware, and its short name (R1). -/
  name : String
  shortName : String
  /-- The title of the source document (R2). -/
  origin : String
  /-- The scheme realised, in the source's words; the RFC texts are not among the sources (R2). -/
  scheme : String
  /-- The commands of the set, by mnemonic, in the order of the opcode map (R2). -/
  commandSet : List String
  /-- The one non-standard extension in scope (R2): ENCP and DECP (43_padding.md R103, R107). -/
  extension : String
  deriving DecidableEq, Repr

/-- The identity R2 asks a model to record. Nothing in the unit reads it: there is no identification register
(10_state.md R17). -/
def identity : Identity where
  name := "sixword block unit"
  shortName := "SW6BU"
  origin := "ab/sixword"
  scheme := "S/Key six-word encoding per RFC 2289/1751/1760"
  commandSet := ["PAR", "ENC", "ENCP", "DEC", "DECP"]
  extension := "padding extension"

end Sys2Proof.Config
end

