-- ==== Sys2Proof/Word.lean ====
section
/-! DEFINITION. The words of the sixword block unit: every value in the unit is an unsigned integer of a stated
width (00_scope.md section 7, rules R5, R9). There is no signed quantity. -/

namespace Sys2Proof

/-- A Block: 64 bits, bit 63 the most significant (00_scope.md R5; 10_state.md R11). -/
abbrev Block := BitVec 64

/-- A word code, the content of one slot of a Sentence: 0..2047 (10_state.md R12). -/
abbrev Code := BitVec 11

/-- A Parity: 2 bits (00_scope.md R5). -/
abbrev Parity := BitVec 2

/-- One byte of a block (00_scope.md R5). -/
abbrev Byte := BitVec 8

/-- A command word `c = data[7:0]` (30_encoding.md R50). -/
abbrev CommandWord := BitVec 8

/-- The 64-bit value one host access carries (20_memory.md R32, R33). -/
abbrev PortData := BitVec 64

end Sys2Proof
end

