-- ==== Sys2Proof/Syntax.lean ====
section
/-! DEFINITION. The five commands of the unit, one constructor per row of the opcode table (30_encoding.md R52). -/

namespace Sys2Proof

/-- A command of the unit. The immediate of a format I command is the unsigned integer the command word carries in
bits 3:0 (30_encoding.md R53); 0..15 are encodable, whether or not the command accepts them. -/
inductive Instr where
  /-- PAR: compute the parity of D (40_parity.md R76). -/
  | par
  /-- ENC: encode the full 8-byte block in D (41_encode.md R85). -/
  | enc
  /-- ENCP n: zero-extend the `n`-byte source block in D, encode it, report the padding (43_padding.md R103). -/
  | encp (n : Nat)
  /-- DEC: decode the Sentence, verifying its checksum (42_decode.md R97). -/
  | dec
  /-- DECP p: decode the Sentence, verify it, discard `p` padding bytes (43_padding.md R107). -/
  | decp (p : Nat)
  deriving DecidableEq, Repr

end Sys2Proof
end

