-- ==== Sys2Proof/WellFormed.lean ====
section
/-! DEFINITION. Which commands have a command word: a format I immediate must fit its 4-bit field
(30_encoding.md R51, R53). An immediate that fits but is out of the command's legal range is well formed: it decodes,
and the command raises OperandRange (30_encoding.md R53). -/

namespace Sys2Proof

/-- The command has an encoding. -/
def Instr.wellFormed : Instr → Bool
  | .par => true
  | .enc => true
  | .encp n => decide (n < Config.immediateValues)
  | .dec => true
  | .decp p => decide (p < Config.immediateValues)

end Sys2Proof
end

