-- ==== Sys2Proof/Decode.lean ====
section
/-! DEFINITION. The command word: fields, decoder, encoder and opcode map (30_encoding.md R50-R54). -/

namespace Sys2Proof

/-- The command word of a host write to CMD: `data[7:0]`; bits 63:8 are ignored (20_memory.md R35; 10_state.md R17). -/
def commandWord (data : PortData) : CommandWord := data.extractLsb' 0 8

/-- Field `op = c[7:4]` (30_encoding.md R50). -/
def opField (c : CommandWord) : BitVec 4 := c.extractLsb' 4 4

/-- Field `arg = c[3:0]` (30_encoding.md R50). -/
def argField (c : CommandWord) : BitVec 4 := c.extractLsb' 0 4

/-- Why a command word is reserved: the rows of the table of 30_encoding.md R54. -/
inductive Reserved where
  /-- op 0x0 and op 0x6..0xF are unassigned; 0x00 is not a no-op. -/
  | unassignedOp (op : BitVec 4)
  /-- PAR, ENC or DEC with a non-zero must-be-zero field. -/
  | mustBeZero (op arg : BitVec 4)
  deriving DecidableEq, Repr

/-- The reason a word that selects no row is reserved (30_encoding.md R54). -/
def reservedReason (op arg : BitVec 4) : Reserved :=
  if op = 0x1#4 ∨ op = 0x2#4 ∨ op = 0x4#4 then .mustBeZero op arg else .unassignedOp op

/-- The decoding procedure of 30_encoding.md R50, total on all 256 command words. -/
def decode (c : CommandWord) : Except Reserved Instr :=
  let op := opField c
  let arg := argField c
  if op = 0x1#4 ∧ arg = 0#4 then .ok .par
  else if op = 0x2#4 ∧ arg = 0#4 then .ok .enc
  else if op = 0x3#4 then .ok (.encp arg.toNat)
  else if op = 0x4#4 ∧ arg = 0#4 then .ok .dec
  else if op = 0x5#4 then .ok (.decp arg.toNat)
  else .error (reservedReason op arg)

/-- The command word of a command: `op` in bits 7:4, the immediate or zero in bits 3:0 (30_encoding.md R51, R52). -/
def encode : Instr → CommandWord
  | .par => 0x1#4 ++ 0x0#4
  | .enc => 0x2#4 ++ 0x0#4
  | .encp n => 0x3#4 ++ BitVec.ofNat 4 n
  | .dec => 0x4#4 ++ 0x0#4
  | .decp p => 0x5#4 ++ BitVec.ofNat 4 p

/-- One row of the opcode map (30_encoding.md R52): a word `c` selects the row when `c & mask = bits`. -/
structure OpcodeRow where
  mnemonic : String
  bits : CommandWord
  mask : CommandWord
  deriving DecidableEq, Repr

/-- The opcode map of 30_encoding.md R52, in its order. -/
def opcodeMap : List OpcodeRow :=
  [⟨"PAR", 0x10#8, 0xFF#8⟩, ⟨"ENC", 0x20#8, 0xFF#8⟩, ⟨"ENCP", 0x30#8, 0xF0#8⟩,
   ⟨"DEC", 0x40#8, 0xFF#8⟩, ⟨"DECP", 0x50#8, 0xF0#8⟩]

/-- A word selects a row of the opcode map (30_encoding.md R52). -/
def OpcodeRow.selectedBy (r : OpcodeRow) (c : CommandWord) : Bool := c &&& r.mask == r.bits

/-- The mnemonic of a command (30_encoding.md R52). -/
def Instr.mnemonic : Instr → String
  | .par => "PAR"
  | .enc => "ENC"
  | .encp _ => "ENCP"
  | .dec => "DEC"
  | .decp _ => "DECP"

/-- The write data that carries an opcode-table word of `nbits` bits to CMD, every higher bit zero. -/
def commandData (nbits w : Nat) : PortData := BitVec.ofNat 64 (w % 2 ^ nbits)

/-- The command this decoder reads from an opcode-table word. -/
def decodeTableWord (nbits w : Nat) : Option Instr := (decode (commandWord (commandData nbits w))).toOption

end Sys2Proof
end

