-- ==== Sys2Proof/Machine/State.lean ====
section
/-! DEFINITION. The state of one unit instance with the accesses its host has still to issue: plain data
(10_state.md R10, R26; 20_memory.md R38, R39; 70_reset_and_hazards.md R150). -/

namespace Sys2Proof.Machine

/-- A Sentence: the six slot registers W[0]..W[5] taken together, W[0] the first word (10_state.md R12). -/
@[ext] structure Sentence where
  w0 : Code
  w1 : Code
  w2 : Code
  w3 : Code
  w4 : Code
  w5 : Code
  deriving DecidableEq, Repr

/-- What a register index names (20_memory.md R31). -/
inductive Reg where
  | d
  | w (k : Fin 6)
  | pad
  | cnt
  | q
  | st
  | cmd
  | reserved
  deriving DecidableEq, Repr

/-- What can reach the unit from outside: the two host accesses (20_memory.md R32, R33), and the `reset` action that
may be taken between any two of them (70_reset_and_hazards.md R150). -/
inductive HostAction where
  /-- `RegRead(idx)`. -/
  | read (idx : Fin 16)
  /-- `RegWrite(idx, data)`. -/
  | write (idx : Fin 16) (data : PortData)
  /-- The reset action. -/
  | reset
  deriving DecidableEq, Repr

/-- An error a command can end in (60_exceptions.md R130); code 0, `None`, is the absence of one. -/
inductive CommandError where
  /-- The embedded parity differs from the computed one (60_exceptions.md R131). -/
  | integrity
  /-- The immediate is outside its legal range (60_exceptions.md R132). -/
  | operandRange
  /-- The command word is reserved (60_exceptions.md R133). -/
  | illegalCommand
  deriving DecidableEq, Repr

/-- The machine. The first six fields are the whole architectural state of the unit (10_state.md R10, R22). The last
two are the MODEL's own and belong to the host, not to the unit: the accesses it has not issued yet, which the step
takes one by one in its program order (20_memory.md R39), and the values its reads have returned (R32). No command
and no register read or write looks at either (DESIGN CHOICE, notes/assumptions/1.md and 2.md; safe). -/
structure State where
  /-- D, the Block (10_state.md R11). -/
  d : Block
  /-- W[0..5], the Sentence (10_state.md R12). -/
  w : Sentence
  /-- PAD, the padding amount (10_state.md R13). -/
  pad : BitVec 3
  /-- CNT, the byte count of the block (10_state.md R14). -/
  cnt : BitVec 4
  /-- Q, the Parity last computed by a successful command (10_state.md R15). -/
  q : Parity
  /-- ST, the status: ERR in bits 1:0, VLD in bit 2 (10_state.md R16). -/
  st : BitVec 3
  /-- Model's own: what reaches the unit next, first to come first. -/
  pending : List HostAction
  /-- Model's own: what the host's reads returned, first answered first. -/
  answers : List PortData
  deriving DecidableEq, Repr

/-- Faults of the machine: none. An error of the unit is a result of a command, left in ST, not a fault
(00_scope.md R8; 60_exceptions.md R134), and every host access completes (70_reset_and_hazards.md R156). -/
inductive Fault where
  deriving DecidableEq, Repr

/-- Refusals of the model. -/
inductive Refusal where
  /-- Raised by an arm of `exec` for an instruction that has no meaning yet; no arm raises it now. Safe: the machine
  stops. -/
  | notModelled (mnemonic : String)
  deriving DecidableEq, Repr

/-- The machine right after reset (10_state.md R26), with a host that has nothing in flight. -/
def State.reset : State where
  d := 0#64
  w := ⟨0#11, 0#11, 0#11, 0#11, 0#11, 0#11⟩
  pad := 0#3
  cnt := 8#4
  q := 0#2
  st := 0#3
  pending := []
  answers := []

end Sys2Proof.Machine
end

