-- ==== Sys2Proof/Machine/Flags.lean ====
section
/-! DEFINITION. The result and status values a command computes: the Parity (40_parity.md R70-R72) and the fields of
ST (10_state.md R16; 60_exceptions.md R130). There are no other flags (10_state.md R20). -/

namespace Sys2Proof.Machine

/-- The base-4 digit `v[2i+1 : 2i]` (40_parity.md R70). -/
def digit (v : Block) (i : Nat) : Nat := (v.extractLsb' (2 * i) 2).toNat

/-- The sum of the first `k` base-4 digits of `v`, as an ordinary integer. -/
def digitSum (v : Block) : Nat → Nat
  | 0 => 0
  | k + 1 => digitSum v k + digit v k

/-- `par2(v)`: the sum of the 32 digits, low 2 bits kept (40_parity.md R70; the single sum, 90_conflicts.md C1). -/
def par2 (v : Block) : Parity := BitVec.ofNat 2 (digitSum v Config.parityDigits)

/-- The loop of 40_parity.md R71 with `k` turns left, working value `x` and running sum `sum`. -/
def parityLoop : Nat → Block → Nat → Nat
  | 0, _, sum => sum
  | k + 1, x, sum => parityLoop k (x >>> 2) (sum + (x &&& 3#64).toNat)

/-- The loop stopped early when the working value becomes 0 (40_parity.md R71). -/
def parityLoopEarly : Nat → Block → Nat → Nat
  | 0, _, sum => sum
  | k + 1, x, sum => if x = 0#64 then sum else parityLoopEarly k (x >>> 2) (sum + (x &&& 3#64).toNat)

/-- The loop that adds modulo 4 at every turn, on a 2-bit running sum (40_parity.md R71). -/
def parityLoopMod4 : Nat → Block → Parity → Parity
  | 0, _, sum => sum
  | k + 1, x, sum => parityLoopMod4 k (x >>> 2) (sum + x.extractLsb' 0 2)

/-- The number of 1 bits of `v` among its first `k` even (`o = 0`) or odd (`o = 1`) positions: the counts E and O of
40_parity.md R72 at `k = 32`. -/
def onesAt (v : Block) (o : Nat) : Nat → Nat
  | 0 => 0
  | k + 1 => onesAt v o k + (v.getLsbD (2 * k + o)).toNat

/-- The error's code in ST.ERR (60_exceptions.md R130). -/
def CommandError.code : CommandError → BitVec 2
  | .integrity => 1#2
  | .operandRange => 2#2
  | .illegalCommand => 3#2

/-- The value of ST with the given fields: `{VLD, ERR[1:0]}` (10_state.md R16). -/
def statusWord (vld : Bool) (err : BitVec 2) : BitVec 3 := BitVec.ofBool vld ++ err

/-- Field ST.ERR = ST[1:0] (10_state.md R16). -/
def State.err (s : State) : BitVec 2 := s.st.extractLsb' 0 2

/-- Field ST.VLD = ST[2] (10_state.md R16). -/
def State.vld (s : State) : Bool := s.st.getLsbD 2

end Sys2Proof.Machine
end

