-- ==== Sys2Proof/Machine/Operands.lean ====
section
/-! DEFINITION. The operand forms of the commands: the immediates, the byte lanes of a block and its padding, and the
Sentence a block is cut into or merged from (20_memory.md R36, R37; 30_encoding.md R53, R55-R57; 41_encode.md R80, R81;
42_decode.md R90, R92; 43_padding.md R100, R101, R106). -/

namespace Sys2Proof.Machine

/-- Byte lane `i` of a block, `D[63-8i : 56-8i]`, lane 0 the most significant (20_memory.md R36). -/
def lane (v : Block) (i : Nat) : Byte := v.extractLsb' (56 - 8 * i) 8

/-- Recovered byte `j` of `count`: `D[8(count-j)-1 : 8(count-j-1)]` (20_memory.md R37 (b)). -/
def recoveredByte (v : Block) (count j : Nat) : Byte := v.extractLsb' (8 * (count - j - 1)) 8

/-- The legal immediates of ENCP: a source block has 1 to 8 bytes (30_encoding.md R53; 43_padding.md R104). -/
def encpLegal (n : Nat) : Bool := decide (1 ≤ n ∧ n ≤ Config.blockBytes)

/-- The legal immediates of DECP: 0 to 7 (30_encoding.md R53; 43_padding.md R108). -/
def decpLegal (p : Nat) : Bool := decide (p ≤ Config.maxPadding)

/-- `zext_block(v, n)`: the first `n` lanes kept, the other `8 - n` forced to zero (43_padding.md R100). -/
def zextBlock (v : Block) (n : Nat) : Block :=
  v &&& ~~~(BitVec.ofNat 64 (2 ^ (Config.byteBits * (Config.blockBytes - n)) - 1))

/-- The padding amount of a source block of `n` bytes (43_padding.md R101), as PAD holds it. -/
def paddingOf (n : Nat) : BitVec 3 := BitVec.ofNat 3 (Config.blockBytes - n)

/-- `unpad(v, p)`: the value shifted right by `8p` bits (logical) and the recovered byte count (43_padding.md R106). -/
def unpad (v : Block) (p : Nat) : Block × Nat := (v >>> (Config.byteBits * p), Config.blockBytes - p)

/-- `slice6(v)` (41_encode.md R80): `{w[0], ..., w[5]} = {v, par2(v)}`. -/
def slice6 (v : Block) : Sentence where
  w0 := v.extractLsb' 53 11
  w1 := v.extractLsb' 42 11
  w2 := v.extractLsb' 31 11
  w3 := v.extractLsb' 20 11
  w4 := v.extractLsb' 9 11
  w5 := v.extractLsb' 0 9 ++ par2 v

/-- The source's encode procedure on a shrinking working integer (41_encode.md R81). -/
def slice6Serial (block : Block) : Sentence :=
  let integer := block.toNat
  let parity := (par2 block).toNat
  let slot5 := ((integer &&& 0x1FF) <<< 2) ||| parity
  let integer := integer >>> 9
  let slot4 := integer &&& 0x7FF
  let integer := integer >>> 11
  let slot3 := integer &&& 0x7FF
  let integer := integer >>> 11
  let slot2 := integer &&& 0x7FF
  let integer := integer >>> 11
  let slot1 := integer &&& 0x7FF
  let integer := integer >>> 11
  let slot0 := integer &&& 0x7FF
  ⟨.ofNat 11 slot0, .ofNat 11 slot1, .ofNat 11 slot2, .ofNat 11 slot3, .ofNat 11 slot4, .ofNat 11 slot5⟩

/-- What merging a Sentence gives: the value, the embedded parity and the computed one (42_decode.md R90). -/
structure Merged where
  value : Block
  embedded : Parity
  computed : Parity
  deriving DecidableEq, Repr

/-- The 64 data bits of a Sentence (42_decode.md R90; the field data9 of W[5] is 30_encoding.md R57). -/
def Sentence.value (w : Sentence) : Block := w.w0 ++ w.w1 ++ w.w2 ++ w.w3 ++ w.w4 ++ w.w5.extractLsb' 2 9

/-- `merge6(w) = (v, pe, pc)` (42_decode.md R90): the parity is computed on the whole reconstructed value. -/
def merge6 (w : Sentence) : Merged where
  value := w.value
  embedded := w.w5.extractLsb' 0 2
  computed := par2 w.value

/-- The integer the source's decode procedure builds, on exact integers (42_decode.md R92 steps 2 and 3). -/
def mergeSerial (w : Sentence) : Nat :=
  let int := [w.w0, w.w1, w.w2, w.w3, w.w4].foldl (fun int code => (int <<< 11) ||| code.toNat) 0
  (int <<< 9) ||| (w.w5.toNat >>> 2)

/-- The Sentence verifies: the embedded parity equals the computed one, in both bits (42_decode.md R93). -/
def Sentence.verifies (w : Sentence) : Bool := (merge6 w).embedded == (merge6 w).computed

/-- Slot `k` of a Sentence. -/
def Sentence.get (w : Sentence) (k : Fin 6) : Code :=
  match k with
  | 0 => w.w0
  | 1 => w.w1
  | 2 => w.w2
  | 3 => w.w3
  | 4 => w.w4
  | 5 => w.w5

/-- The Sentence with slot `k` replaced. -/
def Sentence.set (w : Sentence) (k : Fin 6) (c : Code) : Sentence :=
  match k with
  | 0 => { w with w0 := c }
  | 1 => { w with w1 := c }
  | 2 => { w with w2 := c }
  | 3 => { w with w3 := c }
  | 4 => { w with w4 := c }
  | 5 => { w with w5 := c }

end Sys2Proof.Machine
end

