-- ==== Sys2Proof/Machine/Ops.lean ====
section
/-! DEFINITION. The named operations over the registers: the register port's map, its reads and stores (20_memory.md
R31-R34), the end of a command in an error or with its results (10_state.md R23-R25; 60_exceptions.md R134), and reset
(70_reset_and_hazards.md R150). The unit has no memory (20_memory.md R30). -/

namespace Sys2Proof.Machine

/-- The unit's complete address map: what each of the 16 indices names (20_memory.md R31). -/
def regAt (idx : Fin 16) : Reg :=
  match idx.val with
  | 0 => .d
  | 1 => .w 0
  | 2 => .w 1
  | 3 => .w 2
  | 4 => .w 3
  | 5 => .w 4
  | 6 => .w 5
  | 7 => .pad
  | 8 => .cnt
  | 9 => .q
  | 10 => .st
  | 11 => .cmd
  | _ => .reserved

/-- What a host read of a register returns: its value zero-extended, 0 for CMD and a reserved index (20_memory.md
R32). -/
def readReg (s : State) : Reg → PortData
  | .d => s.d
  | .w k => (s.w.get k).setWidth 64
  | .pad => s.pad.setWidth 64
  | .cnt => s.cnt.setWidth 64
  | .q => s.q.setWidth 64
  | .st => s.st.setWidth 64
  | .cmd => 0#64
  | .reserved => 0#64

/-- What a host write stores: all of the data in D, the low 11 bits in W[k] (20_memory.md R33), nothing in a read-only
register or at a reserved index (R34). CMD stores nothing either (10_state.md R17): the command its write performs is
`performCommand`. -/
def storeReg (r : Reg) (data : PortData) (s : State) : State :=
  match r with
  | .d => { s with d := data }
  | .w k => { s with w := s.w.set k (data.extractLsb' 0 11) }
  | .pad => s
  | .cnt => s
  | .q => s
  | .st => s
  | .cmd => s
  | .reserved => s

/-- `raise e`, the whole effect of a command that ends in an error: ERR takes the code, VLD becomes 0, nothing else is
written (60_exceptions.md R134; 10_state.md R24). Nothing is saved and there is no return from it: the next command is
performed as if the error had not happened (60_exceptions.md R137). -/
def raise (e : CommandError) (s : State) : State := { s with st := statusWord false e.code }

/-- A successful command writes ERR = 0 and VLD = 1 (10_state.md R16). -/
def succeed (s : State) : State := { s with st := statusWord true 0#2 }

/-- The results of a successful encode of block `b`, a source block of `n` bytes: W, Q, PAD, CNT and ST
(10_state.md R23; 41_encode.md R85; 43_padding.md R103). -/
def encodeResults (b : Block) (n : Nat) (s : State) : State :=
  succeed { s with w := slice6 b, q := par2 b, pad := paddingOf n, cnt := BitVec.ofNat 4 n }

/-- The results of a successful decode: the block or the shifted block in D, the verified parity, the padding amount
and the recovered byte count (10_state.md R23; 42_decode.md R97; 43_padding.md R107). -/
def decodeResults (b : Block) (parity : Parity) (p count : Nat) (s : State) : State :=
  succeed { s with d := b, q := parity, pad := BitVec.ofNat 3 p, cnt := BitVec.ofNat 4 count }

/-- The reset action on the unit: every register to its reset value, whatever the state before (10_state.md R26;
70_reset_and_hazards.md R150). The host's own side is not the unit's and stays. -/
def resetUnit (s : State) : State := { State.reset with pending := s.pending, answers := s.answers }

/-- The host receives the value of a read; no register changes (20_memory.md R32). -/
def answerRead (v : PortData) (s : State) : State := { s with answers := s.answers ++ [v] }

end Sys2Proof.Machine
end

