-- ==== Sys2Proof/Machine/DecodeSentence.lean ====
section
/-! DEFINITION. The DEC command (42_decode.md R97). -/

namespace Sys2Proof.Machine

/-- DEC: merge W[0..5], compare the two parities, and either raise Integrity or write the block, its parity, PAD 0 and
CNT 8 (42_decode.md R97). -/
def execDec (s : State) : Host.Outcome State Fault Refusal :=
  let m := merge6 s.w
  if m.embedded ≠ m.computed then .next (raise .integrity s)
  else .next (decodeResults m.value m.computed 0 Config.blockBytes s)

end Sys2Proof.Machine
end

