-- ==== Sys2Proof/Machine/Encode.lean ====
section
/-! DEFINITION. The ENC command (41_encode.md R85). -/

namespace Sys2Proof.Machine

/-- ENC: the full 8-byte block in D into W[0..5], with PAD 0 and CNT 8; D is not written (41_encode.md R85). -/
def execEnc (s : State) : Host.Outcome State Fault Refusal :=
  .next (encodeResults s.d Config.blockBytes s)

end Sys2Proof.Machine
end

