-- ==== Sys2Proof/Machine/Padding.lean ====
section
/-! DEFINITION. The padded commands ENCP and DECP (43_padding.md R103-R105, R107-R111). -/

namespace Sys2Proof.Machine

/-- ENCP n: OperandRange unless n is 1..8; else encode the zero-extended block and write it back to D
(43_padding.md R103, R104). -/
def execEncp (n : Nat) (s : State) : Host.Outcome State Fault Refusal :=
  if encpLegal n = false then .next (raise .operandRange s)
  else
    let b := zextBlock s.d n
    .next (encodeResults b n { s with d := b })

/-- DECP p: OperandRange for p above 7, before the Sentence is examined (43_padding.md R108; 60_exceptions.md R135);
then Integrity when the full 64-bit value does not verify; else the value shifted right by 8p bits, the discarded bytes
unexamined (43_padding.md R107, R111). -/
def execDecp (p : Nat) (s : State) : Host.Outcome State Fault Refusal :=
  if decpLegal p = false then .next (raise .operandRange s)
  else
    let m := merge6 s.w
    if m.embedded ≠ m.computed then .next (raise .integrity s)
    else
      let r := unpad m.value p
      .next (decodeResults r.1 m.computed p r.2 s)

end Sys2Proof.Machine
end

