-- ==== Sys2Proof/Machine/Parity.lean ====
section
/-! DEFINITION. The PAR command (40_parity.md R76). -/

namespace Sys2Proof.Machine

/-- PAR: `Q <- par2(D)`, ST success; D, W, PAD and CNT are not written (40_parity.md R76). -/
def execPar (s : State) : Host.Outcome State Fault Refusal :=
  .next (succeed { s with q := par2 s.d })

end Sys2Proof.Machine
end

