-- ==== Sys2Proof/Machine/Dispatch.lean ====
section
/-! DEFINITION. One arm per command: its meaning. -/

namespace Sys2Proof.Machine

def exec (i : Instr) (s : State) : Host.Outcome State Fault Refusal :=
  match i with
  | .par => Sys2Proof.Machine.execPar s
  | .enc => Sys2Proof.Machine.execEnc s
  | .encp n => Sys2Proof.Machine.execEncp n s
  | .dec => Sys2Proof.Machine.execDec s
  | .decp p => Sys2Proof.Machine.execDecp p s

end Sys2Proof.Machine
end

