-- ==== Sys2Proof/Machine/Port.lean ====
section
/-! DEFINITION. The register port: what one host access does (20_memory.md R32-R35, R38-R40), the reset action, and
taking the next access in the host's program order. -/

namespace Sys2Proof.Machine

/-- Performing a command word: decoded first; a reserved word raises IllegalCommand and nothing further is examined
(30_encoding.md R50, R54; 60_exceptions.md R133, R135). -/
def performCommand (c : CommandWord) (s : State) : Host.Outcome State Fault Refusal :=
  match decode c with
  | .ok i => exec i s
  | .error _ => .next (raise .illegalCommand s)

/-- `RegRead(idx)` (20_memory.md R32). -/
def regRead (idx : Fin 16) (s : State) : Host.Outcome State Fault Refusal :=
  .next (answerRead (readReg s (regAt idx)) s)

/-- `RegWrite(idx, data)` (20_memory.md R33-R35). -/
def regWrite (idx : Fin 16) (data : PortData) (s : State) : Host.Outcome State Fault Refusal :=
  if regAt idx = .cmd then performCommand (commandWord data) s
  else .next (storeReg (regAt idx) data s)

/-- One thing that reaches the unit from outside, performed whole (20_memory.md R39, R40; 70_reset_and_hazards.md
R150). -/
def perform (a : HostAction) (s : State) : Host.Outcome State Fault Refusal :=
  match a with
  | .read idx => regRead idx s
  | .write idx data => regWrite idx data s
  | .reset => .next (resetUnit s)

/-- The next access in the host's program order, and the machine once it has been issued (20_memory.md R39). -/
def nextAction (s : State) : Option (HostAction × State) :=
  match s.pending with
  | [] => none
  | a :: rest => some (a, { s with pending := rest })

/-- A run of accesses, each performed whole before the next (20_memory.md R39); it ends early only if one stops. -/
def performAll : List HostAction → State → Host.Outcome State Fault Refusal
  | [], s => .next s
  | a :: rest, s =>
    match perform a s with
    | .next t => performAll rest t
    | .fault r => .fault r
    | .refused r => .refused r

/-- The index of CMD (20_memory.md R31). -/
def cmdIndex : Fin 16 := 11

/-- A command mnemonic stands for `WR CMD, <command word>` (30_encoding.md R60). -/
def issue (i : Instr) : HostAction := .write cmdIndex ((encode i).setWidth 64)

/-- The machine with a write of `data` to CMD as the very next access of the host. -/
def presentCommand (data : PortData) (s : State) : State := { s with pending := .write cmdIndex data :: s.pending }

end Sys2Proof.Machine
end

