-- ==== Sys2Proof/Machine/Step.lean ====
section
/-! DEFINITION. One step: the next access of the host, performed whole (00_scope.md R7; 20_memory.md R38, R39). -/

namespace Sys2Proof.Machine

/-- One step. With no access to come the unit is idle and holds all of its state (60_exceptions.md R142; that idling
is a step is the model's choice, notes/assumptions/3.md). -/
def step (s : State) : Host.Outcome State Fault Refusal :=
  match nextAction s with
  | none => .next s
  | some (a, t) => perform a t

/-- `s` with the opcode-table word `w` of `nbits` bits written to CMD by the very next access. -/
def State.withFetchWord (s : State) (nbits w : Nat) : State := presentCommand (commandData nbits w) s

end Sys2Proof.Machine
end

