-- ==== Sys2Proof/Machine/HostText.lean ====
section
/-! DEFINITION. The text side of the host: the dictionary as a parameter, its two lookups, and the padding marker
(44_host_driver.md R115-R119). None of it is in the unit (00_scope.md R4); it is here so that the end-to-end round
trips of the source can be stated over the machine. -/

namespace Sys2Proof.Machine

/-- A token or word, as its characters. -/
abbrev Token := List Char

/-- The errors a whole encode or decode can end in (44_host_driver.md R125). -/
inductive HostError where
  /-- Byte count not a multiple of 8 with padding disabled, or token count not a multiple of 6. -/
  | format
  /-- A token of 1 to 4 characters that is not in the dictionary. -/
  | unknownWord
  /-- A token of 5 or more characters. -/
  | invalidWord
  /-- The unit reported Integrity. -/
  | integrity
  /-- Not one of the source's kinds: a token of length 0, whose classification the source does not state
  (91_not_in_source.md N9; 93_implementation_defined.md U8). Safe: the decode ends. -/
  | unstatedToken
  /-- Not one of the source's kinds: the unit answered what no correct transaction meets. Safe: the run ends. -/
  | unexpected
  deriving DecidableEq, Repr

/-- The Word Dictionary: code to word (44_host_driver.md R115). The words are in no source (91_not_in_source.md N3). -/
structure Dictionary where
  wordOf : Code → Token

/-- The ten code-word pairs the source determines (44_host_driver.md R117). -/
def knownWords : List (Code × Token) :=
  [(0#11, ['A']), (204#11, ['H', 'A', 'Y']), (336#11, ['M', 'U', 'G']), (1073#11, ['F', 'R', 'E', 'D']),
   (1351#11, ['L', 'A', 'C', 'E']), (1413#11, ['L', 'I', 'V', 'E']), (1676#11, ['R', 'O', 'M', 'E']),
   (1723#11, ['S', 'C', 'A', 'N']), (1782#11, ['S', 'L', 'E', 'W']), (1920#11, ['T', 'R', 'O', 'T'])]

/-- What a whole-system model may take as the dictionary: a bijection onto 2048 distinct words of 1 to 4 upper-case
ASCII alphanumerics, none ending in a digit, that agrees with the ten known pairs (44_host_driver.md R117). -/
structure Dictionary.Lawful (dict : Dictionary) : Prop where
  injective : ∀ c c', dict.wordOf c = dict.wordOf c' → c = c'
  nonempty : ∀ c, 1 ≤ (dict.wordOf c).length
  short : ∀ c, (dict.wordOf c).length ≤ 4
  alphanumeric : ∀ c, ∀ ch ∈ dict.wordOf c, ch.isUpper = true ∨ ch.isDigit = true
  noDigitLast : ∀ c ch, (dict.wordOf c).getLast? = some ch → ch.isDigit = false
  known : ∀ e ∈ knownWords, dict.wordOf e.1 = e.2

/-- The code whose word is `word`, if any. -/
def Dictionary.codeOf (dict : Dictionary) (word : Token) : Option Code :=
  ((List.range 2048).find? fun c => dict.wordOf (BitVec.ofNat 11 c) == word).map (BitVec.ofNat 11)

/-- `lookup_by_word`: the token in upper case, matched against the table; a token of 5 or more characters is malformed
whatever the table holds (44_host_driver.md R116). -/
def lookupByWord (dict : Dictionary) (token : Token) : Except HostError Code :=
  if 5 ≤ token.length then .error .invalidWord
  else
    match dict.codeOf (token.map Char.toUpper) with
    | some c => .ok c
    | none => if token.length = 0 then .error .unstatedToken else .error .unknownWord

/-- Encode side: the marker digit appended to the sixth word's text when PAD is not 0 (44_host_driver.md R118; the
character code is 30_encoding.md R59). -/
def appendMarker (pad : BitVec 3) (word : Token) : Token :=
  if pad = 0#3 then word else word ++ [Char.ofNat (0x30 + pad.toNat)]

/-- Decode side: a last character '1'..'7' stripped and recorded; any other token left as it is, with padding 0
(44_host_driver.md R119). -/
def stripMarker (token : Token) : Token × Nat :=
  match token.getLast? with
  | none => (token, 0)
  | some ch => if 0x31 ≤ ch.toNat ∧ ch.toNat ≤ 0x37 then (token.dropLast, ch.toNat - 0x30) else (token, 0)

end Sys2Proof.Machine
end

