-- ==== Sys2Proof/Machine/HostDriver.lean ====
section
/-! DEFINITION. The iteration side of the host: the per-block transactions and the sequence driver
(44_host_driver.md R120, R121, R123, R124, R126), every access of which is performed by the machine of Port.lean. None
of it is in the unit (00_scope.md R4). -/

namespace Sys2Proof.Machine

/-- The list in consecutive groups of `k` (the last may be shorter), cut at most `fuel` times. -/
def groupsFuel {α : Type} (k : Nat) : Nat → List α → List (List α)
  | 0, _ => []
  | _ + 1, [] => []
  | fuel + 1, x :: xs => (x :: xs).take k :: groupsFuel k fuel ((x :: xs).drop k)

/-- The list in consecutive groups of `k`, the last possibly shorter (44_host_driver.md R121, R123). -/
def groupsOf {α : Type} (k : Nat) (xs : List α) : List (List α) := groupsFuel k xs.length xs

/-- Bytes placed in lanes `i`, `i + 1`, …, the other lanes zero (20_memory.md R36, R37 (a)). -/
def packLanes : Nat → List Byte → Block
  | _, [] => 0#64
  | i, b :: bs => (b.setWidth 64 <<< (56 - 8 * i)) ||| packLanes (i + 1) bs

/-- The bytes recovered from D: its low `count` bytes, most significant first (44_host_driver.md R124). -/
def recoveredBytes (d : Block) (count : Nat) : List Byte := (List.range count).map (recoveredByte d count)

/-- One transaction: the accesses performed in order, and what its reads returned (44_host_driver.md R126). -/
def transact (actions : List HostAction) (s : State) : Except HostError (List PortData × State) :=
  match performAll actions { s with answers := [] } with
  | .next t => .ok (t.answers, t)
  | .fault _ => .error .unexpected
  | .refused _ => .error .unexpected

/-- Encode transaction of a source block of `n` bytes: ENC for a full block, ENCP n for a short one
(44_host_driver.md R121, R126). -/
def encodeTransaction (block : Block) (n : Nat) : List HostAction :=
  [.write 0 block, issue (if n = Config.blockBytes then .enc else .encp n), .read 10,
   .read 1, .read 2, .read 3, .read 4, .read 5, .read 6, .read 7]

/-- Decode transaction: DEC, or DECP p where a marker was looked for (44_host_driver.md R119, R126). -/
def decodeTransaction (codes : Sentence) (command : Instr) : List HostAction :=
  [.write 1 (codes.w0.setWidth 64), .write 2 (codes.w1.setWidth 64), .write 3 (codes.w2.setWidth 64),
   .write 4 (codes.w3.setWidth 64), .write 5 (codes.w4.setWidth 64), .write 6 (codes.w5.setWidth 64),
   issue command, .read 10, .read 0, .read 8]

/-- One block to its six tokens, the sixth with its marker (44_host_driver.md R115, R118, R121). -/
def encodeBlock (dict : Dictionary) (bytes : List Byte) (s : State) : Except HostError (List Token × State) :=
  match transact (encodeTransaction (packLanes 0 bytes) bytes.length) s with
  | .ok ([st, v0, v1, v2, v3, v4, v5, pad], t) =>
    if st = 4#64 then
      .ok ([dict.wordOf (v0.setWidth 11), dict.wordOf (v1.setWidth 11), dict.wordOf (v2.setWidth 11),
            dict.wordOf (v3.setWidth 11), dict.wordOf (v4.setWidth 11),
            appendMarker (pad.setWidth 3) (dict.wordOf (v5.setWidth 11))], t)
    else .error .unexpected
  | .ok _ => .error .unexpected
  | .error e => .error e

/-- The blocks encoded one after another, their tokens in order (44_host_driver.md R120, R121). -/
def encodeBlocks (dict : Dictionary) : List (List Byte) → State → Except HostError (List Token × State)
  | [], s => .ok ([], s)
  | block :: blocks, s =>
    match encodeBlock dict block s with
    | .error e => .error e
    | .ok (tokens, t) =>
      match encodeBlocks dict blocks t with
      | .error e => .error e
      | .ok (rest, u) => .ok (tokens ++ rest, u)

/-- Encode of a byte string (44_host_driver.md R121); the Format error is raised before any block is encoded, which
the source leaves open (91_not_in_source.md N10; DESIGN CHOICE, notes/assumptions/5.md). -/
def encodeBytes (dict : Dictionary) (pad : Bool) (bytes : List Byte) (s : State) :
    Except HostError (List Token × State) :=
  if bytes.length % Config.blockBytes ≠ 0 ∧ pad = false then .error .format
  else encodeBlocks dict (groupsOf Config.blockBytes bytes) s

/-- The six tokens looked up in order; the first failure is reported (44_host_driver.md R116). -/
def lookupSix (dict : Dictionary) (t0 t1 t2 t3 t4 t5 : Token) : Except HostError Sentence :=
  match lookupByWord dict t0, lookupByWord dict t1, lookupByWord dict t2, lookupByWord dict t3,
    lookupByWord dict t4, lookupByWord dict t5 with
  | .ok c0, .ok c1, .ok c2, .ok c3, .ok c4, .ok c5 => .ok ⟨c0, c1, c2, c3, c4, c5⟩
  | .error e, _, _, _, _, _ => .error e
  | _, .error e, _, _, _, _ => .error e
  | _, _, .error e, _, _, _ => .error e
  | _, _, _, .error e, _, _ => .error e
  | _, _, _, _, .error e, _ => .error e
  | _, _, _, _, _, .error e => .error e

/-- Six tokens back to bytes. `marked` says that the sixth token is the last of a decode with padding allowed, so that
its marker is looked for (44_host_driver.md R119, R123, R124). -/
def decodeSentence (dict : Dictionary) (tokens : List Token) (marked : Bool) (s : State) :
    Except HostError (List Byte × State) :=
  match tokens with
  | [t0, t1, t2, t3, t4, t5] =>
    let stripped := if marked then stripMarker t5 else (t5, 0)
    let command := if marked then Instr.decp stripped.2 else Instr.dec
    match lookupSix dict t0 t1 t2 t3 t4 stripped.1 with
    | .error e => .error e
    | .ok codes =>
      match transact (decodeTransaction codes command) s with
      | .ok ([st, d, cnt], t) =>
        if st = 1#64 then .error .integrity
        else if st = 4#64 then .ok (recoveredBytes d cnt.toNat, t)
        else .error .unexpected
      | .ok _ => .error .unexpected
      | .error e => .error e
  | _ => .error .unexpected

/-- The Sentences decoded one after another; only the last may carry a marker (44_host_driver.md R123). -/
def decodeSentences (dict : Dictionary) (allowPadding : Bool) :
    List (List Token) → State → Except HostError (List Byte × State)
  | [], s => .ok ([], s)
  | six :: sixes, s =>
    match decodeSentence dict six (allowPadding && sixes.isEmpty) s with
    | .error e => .error e
    | .ok (bytes, t) =>
      match decodeSentences dict allowPadding sixes t with
      | .error e => .error e
      | .ok (rest, u) => .ok (bytes ++ rest, u)

/-- Decode of a token sequence (44_host_driver.md R123). -/
def decodeTokens (dict : Dictionary) (allowPadding : Bool) (tokens : List Token) (s : State) :
    Except HostError (List Byte × State) :=
  if tokens.length % Config.sentenceSlots ≠ 0 then .error .format
  else decodeSentences dict allowPadding (groupsOf Config.sentenceSlots tokens) s

end Sys2Proof.Machine
end

