-- ==== Sys2Proof/Safety.lean ====
section
/-! DEFINITION. The terms claims are stated in: what a good state is (10_state.md R16, R18, R27), which commands are
accepted, and the arithmetic of the rules written a second time with division and remainder, so that a claim does not
repeat the definition it is about. -/

namespace Sys2Proof.Machine

/-- The state an outcome goes on in, if it goes on. -/
def nextOf : Host.Outcome State Fault Refusal → Option State
  | .next t => some t
  | .fault _ => none
  | .refused _ => none

/-- Invariants I-1 and I-2 (10_state.md R27): CNT = 8 - PAD, and VLD = 1 only with ERR = 0. -/
abbrev State.consistent (s : State) : Prop :=
  s.cnt.toNat = 8 - s.pad.toNat ∧ (s.vld = true → s.err = 0#2)

/-- The command's immediate, if it has one, is in its legal range (30_encoding.md R53). -/
def accepted : Instr → Bool
  | .par => true
  | .enc => true
  | .encp n => encpLegal n
  | .dec => true
  | .decp p => decpLegal p

/-- The digit sum of 40_parity.md R70 by division: digit `i` is `v / 4^i mod 4`. -/
def digitTotal (v : Nat) : Nat := ((List.range 32).map fun i => v / 4 ^ i % 4).sum

/-- The parity of 40_parity.md R70 by division. -/
def parityOf (v : Nat) : Nat := digitTotal v % 4

/-- The six codes of 41_encode.md R80 by division. -/
def codesOf (v : Block) : Sentence :=
  ⟨.ofNat 11 (v.toNat / 2 ^ 53), .ofNat 11 (v.toNat / 2 ^ 42 % 2048), .ofNat 11 (v.toNat / 2 ^ 31 % 2048),
   .ofNat 11 (v.toNat / 2 ^ 20 % 2048), .ofNat 11 (v.toNat / 2 ^ 9 % 2048),
   .ofNat 11 (v.toNat % 512 * 4 + parityOf v.toNat)⟩

/-- The value of 42_decode.md R90 by multiplication. -/
def valueOf (w : Sentence) : Nat :=
  ((((w.w0.toNat * 2048 + w.w1.toNat) * 2048 + w.w2.toNat) * 2048 + w.w3.toNat) * 2048 + w.w4.toNat) * 512 +
    w.w5.toNat / 4

/-- The verification of 42_decode.md R93 by arithmetic. -/
abbrev checksOut (w : Sentence) : Prop := w.w5.toNat % 4 = parityOf (valueOf w)

/-- The block with every lane from `n` on zero (43_padding.md R100), by arithmetic. -/
def keptBytes (v : Block) (n : Nat) : Block := .ofNat 64 (v.toNat / 2 ^ (8 * (8 - n)) * 2 ^ (8 * (8 - n)))

/-- The block `v` with digit `i` replaced by `x`. -/
def setDigit (v : Block) (i : Nat) (x : BitVec 2) : Block :=
  (v &&& ~~~(3#64 <<< (2 * i))) ||| (x.setWidth 64 <<< (2 * i))

end Sys2Proof.Machine
end

