-- ==== Sys2Proof/Certificates/Slice0/Obligations.lean ====
section
/-! DEFINITION. The statements about the machine, each from the rules of spec/ it names. A next state is written as the
state before with the registers that change, so every statement of a result is also its frame: every register it does
not name, the host's accesses to come and the host's answers are unchanged. The unit has no memory (20_memory.md R30),
so no frame speaks of one. -/

open Sys2Proof Sys2Proof.Machine

/-! ## Encoding -/

/-- Every command that has an encoding decodes back from it, and a word that decodes is that command's encoding
(30_encoding.md R50-R53). -/
def Obligations.DecodeInvertsEncode : Prop :=
  (∀ i : Instr, i.wellFormed = true → decode (encode i) = .ok i) ∧
  (∀ (c : CommandWord) (i : Instr), decode c = .ok i → i.wellFormed = true ∧ encode i = c)

/-- 30_encoding.md R50: a write to CMD performs the command its low 8 bits select, in the order of the procedure. -/
def Obligations.CmdWriteFollowsDecodingProcedure : Prop :=
  ∀ (data : PortData) (s : State),
    regWrite 11 data s =
      (let op := data.toNat / 16 % 16
       let arg := data.toNat % 16
       if op = 1 ∧ arg = 0 then exec .par s
       else if op = 2 ∧ arg = 0 then exec .enc s
       else if op = 3 then exec (.encp arg) s
       else if op = 4 ∧ arg = 0 then exec .dec s
       else if op = 5 then exec (.decp arg) s
       else .next { s with st := 3#3 })

/-- 30_encoding.md R52: the opcode map selects at most one row, and it is the row of the command decoded; a word that
selects no row is IllegalCommand. -/
def Obligations.OpcodeMapSelectsTheCommand : Prop :=
  ∀ c : CommandWord,
    (opcodeMap.filter (·.selectedBy c)).length ≤ 1 ∧
    (opcodeMap.find? (·.selectedBy c)).map (·.mnemonic) = (decode c).toOption.map Instr.mnemonic ∧
    (opcodeMap.any (·.selectedBy c) = false → ∀ s : State, performCommand c s = .next { s with st := 3#3 })

/-- 30_encoding.md R54: of the 256 words 35 select a command, 19 of them fully legal and 16 raising OperandRange, and
221 are reserved; which words these are; each of the last two kinds changes ST only. -/
def Obligations.CommandWordClasses : Prop :=
  (let words := (List.range 256).map (BitVec.ofNat 8)
   let decoded := words.filterMap fun c => (decode c).toOption
   decoded.length = 35 ∧ (decoded.filter accepted).length = 19 ∧ words.length - decoded.length = 221 ∧
   (["PAR", "ENC", "ENCP", "DEC", "DECP"].map fun m => (decoded.filter (·.mnemonic == m)).length) =
     [1, 1, 16, 1, 16]) ∧
  (∀ (c : CommandWord),
    ((decode c).toOption = none ↔
      c.toNat / 16 = 0 ∨ 6 ≤ c.toNat / 16 ∨ (c.toNat / 16 ∈ [1, 2, 4] ∧ c.toNat % 16 ≠ 0)) ∧
    ((decode c).toOption.any accepted = true ↔
      c.toNat ∈ [0x10, 0x20, 0x40] ∨ (0x31 ≤ c.toNat ∧ c.toNat ≤ 0x38) ∨ (0x50 ≤ c.toNat ∧ c.toNat ≤ 0x57)) ∧
    ((decode c).toOption.any (fun i => !accepted i) = true ↔
      c.toNat = 0x30 ∨ (0x39 ≤ c.toNat ∧ c.toNat ≤ 0x3F) ∨ (0x58 ≤ c.toNat ∧ c.toNat ≤ 0x5F))) ∧
  (∀ (c : CommandWord) (i : Instr) (s : State), decode c = .ok i → accepted i = false →
    performCommand c s = .next { s with st := 2#3 }) ∧
  (∀ (c : CommandWord) (s : State), (decode c).toOption = none → performCommand c s = .next { s with st := 3#3 })

/-- One word of every family, written out from 30_encoding.md R52, decodes to its command. -/
def Obligations.WrittenWordsDecode : Prop :=
  decode 0b00010000#8 = .ok .par ∧ decode 0b00100000#8 = .ok .enc ∧ decode 0b00110110#8 = .ok (.encp 6) ∧
  decode 0b01000000#8 = .ok .dec ∧ decode 0b01010010#8 = .ok (.decp 2)

/-! ## The step -/

/-- The step takes the host's next access (the model's `pending`, notes/assumptions/1.md) and performs exactly it: a
write, a read or the reset action (70_reset_and_hazards.md R150, as an entry of that list: notes/assumptions/9.md); and
when it writes to CMD a word that decodes, the step is that command's `exec` (30_encoding.md R50; 20_memory.md R35, R38,
R39). -/
def Obligations.StepRunsTheDecodedCommand : Prop :=
  (∀ (s : State) (data : PortData) (rest : List HostAction) (i : Instr),
    s.pending = .write 11 data :: rest → decode (data.extractLsb' 0 8) = .ok i →
    step s = exec i { s with pending := rest }) ∧
  (∀ (s : State) (idx : Fin 16) (data : PortData) (rest : List HostAction),
    (s.pending = .write idx data :: rest → step s = regWrite idx data { s with pending := rest }) ∧
    (s.pending = .read idx :: rest → step s = regRead idx { s with pending := rest }) ∧
    (s.pending = .reset :: rest → step s = .next (resetUnit { s with pending := rest })))

/-- 60_exceptions.md R133: a write to CMD of a reserved word raises IllegalCommand, and that changes ST only. -/
def Obligations.ReservedWordRaisesIllegalCommand : Prop :=
  ∀ (s : State) (data : PortData) (why : Reserved), decode (data.extractLsb' 0 8) = .error why →
    regWrite 11 data s = .next { s with st := 3#3 }

/-- 70_reset_and_hazards.md R156: every access completes; the step answers a next state from every state, and it takes
one access from the host. With no access to come the unit holds all of its state (60_exceptions.md R142); that idling
is a step is the model's choice (notes/assumptions/3.md). -/
def Obligations.EveryStepCompletes : Prop :=
  ∀ s : State, (∃ t : State, step s = .next t ∧ t.pending = s.pending.tail) ∧ (s.pending = [] → step s = .next s)

/-- 20_memory.md R39: the accesses the host has queued take effect one after another, each whole, in its order,
whatever it queues behind them. -/
def Obligations.QueuedAccessesTakeEffectInOrder : Prop :=
  ∀ (acts rest : List HostAction) (s : State), ∃ t : State,
    performAll acts { s with pending := rest } = .next t ∧ t.pending = rest ∧
    Sys2Proof.core.run acts.length { s with pending := acts ++ rest } = .next t

/-! ## The register port -/

/-- A read gives the host the register of its index zero-extended, 0 for CMD and a reserved index, and changes no
register (20_memory.md R31, R32); that the host's answers are a list of the model's is notes/assumptions/2.md. -/
def Obligations.ReadAnswersTheIndexedRegister : Prop :=
  ∀ (s : State) (idx : Fin 16),
    regRead idx s = .next { s with
      answers := s.answers ++ [BitVec.ofNat 64
        (match idx.val with
         | 0 => s.d.toNat
         | 1 => s.w.w0.toNat
         | 2 => s.w.w1.toNat
         | 3 => s.w.w2.toNat
         | 4 => s.w.w3.toNat
         | 5 => s.w.w4.toNat
         | 6 => s.w.w5.toNat
         | 7 => s.pad.toNat
         | 8 => s.cnt.toNat
         | 9 => s.q.toNat
         | 10 => s.st.toNat
         | _ => 0)] }

/-- 20_memory.md R33: a write to D stores all of the data, a write to W[k] its low 11 bits, and no other register
changes. -/
def Obligations.WriteStoresDataOrSlot : Prop :=
  ∀ (s : State) (data : PortData),
    let low := BitVec.ofNat 11 (data.toNat % 2048)
    regWrite 0 data s = .next { s with d := data } ∧
    regWrite 1 data s = .next { s with w := { s.w with w0 := low } } ∧
    regWrite 2 data s = .next { s with w := { s.w with w1 := low } } ∧
    regWrite 3 data s = .next { s with w := { s.w with w2 := low } } ∧
    regWrite 4 data s = .next { s with w := { s.w with w3 := low } } ∧
    regWrite 5 data s = .next { s with w := { s.w with w4 := low } } ∧
    regWrite 6 data s = .next { s with w := { s.w with w5 := low } }

/-- 20_memory.md R34: a write to PAD, CNT, Q, ST or a reserved index changes nothing, and a read of a reserved index
returns 0. -/
def Obligations.ReadOnlyAndReservedWritesAreIgnored : Prop :=
  ∀ (s : State) (idx : Fin 16) (data : PortData),
    (7 ≤ idx.val → idx.val ≠ 11 → regWrite idx data s = .next s) ∧
    (12 ≤ idx.val → readReg s (regAt idx) = 0#64)

/-- A write to CMD performs the word in data[7:0] and ignores bits 63:8, and a read of CMD returns 0; the write leaves
the last command word nowhere, so two writes of one low byte do the same (10_state.md R17; 20_memory.md R35). -/
def Obligations.CmdTakesOnlyItsLowByte : Prop :=
  ∀ (s : State) (data data' : PortData),
    regWrite 11 data s = performCommand (BitVec.ofNat 8 (data.toNat % 256)) s ∧
    (data.toNat % 256 = data'.toNat % 256 → regWrite 11 data s = regWrite 11 data' s) ∧
    readReg s (regAt 11) = 0#64

/-- Only a write to CMD and a reset change anything but D, W and the host's own side: a read changes no register, and a
write changes at most the register of its index, W[k] only at index k + 1 (20_memory.md R33, R34, R35, R40;
60_exceptions.md R143). -/
def Obligations.OnlyCommandsAndResetChangeResults : Prop :=
  ∀ (s t : State) (a : HostAction) (rest : List HostAction), s.pending = a :: rest → a ≠ .reset →
    (∀ data, a ≠ .write 11 data) → step s = .next t →
    t.pad = s.pad ∧ t.cnt = s.cnt ∧ t.q = s.q ∧ t.st = s.st ∧
    ((∃ idx, a = .read idx) → t.d = s.d ∧ t.w = s.w) ∧
    (∀ data, a = .write 0 data → t.w = s.w) ∧
    (∀ idx data, a = .write idx data → idx ≠ 0 → t.d = s.d) ∧
    (∀ idx data (k : Fin 6), a = .write idx data → idx.val ≠ k.val + 1 → t.w.get k = s.w.get k)

/-! ## Reset -/

/-- 10_state.md R26: the reset values, and that this state is the one an ENC of the all-zero block leaves, but for
VLD. -/
def Obligations.ResetValues : Prop :=
  State.reset.d = 0#64 ∧ State.reset.w = ⟨0#11, 0#11, 0#11, 0#11, 0#11, 0#11⟩ ∧ State.reset.pad = 0#3 ∧
  State.reset.cnt = 8#4 ∧ State.reset.q = 0#2 ∧ State.reset.st = 0#3 ∧ State.reset.err = 0#2 ∧
  State.reset.vld = false ∧ exec .enc State.reset = .next { State.reset with st := 4#3 }

/-- 70_reset_and_hazards.md R150: the reset action yields the reset value of every register whatever the state before,
and it leaves the host's own side alone (the model's fields, notes/assumptions/1.md and 2.md). -/
def Obligations.ResetActionYieldsResetState : Prop :=
  ∀ (s : State) (rest : List HostAction), s.pending = .reset :: rest →
    step s = .next
      { d := 0#64, w := ⟨0#11, 0#11, 0#11, 0#11, 0#11, 0#11⟩, pad := 0#3, cnt := 8#4, q := 0#2, st := 0#3,
        pending := rest, answers := s.answers }

/-! ## The parity function -/

/-- 40_parity.md R70: `par2` is the sum of the 32 base-4 digits, modulo 4. -/
def Obligations.ParityIsDigitSumModFour : Prop :=
  ∀ v : Block, (par2 v).toNat = ((List.range 32).map fun i => v.toNat / 4 ^ i % 4).sum % 4

/-- 40_parity.md R71: the loop, the loop stopped early and the loop adding modulo 4 all compute `par2`. -/
def Obligations.ParityLoopsAgree : Prop :=
  ∀ v : Block, BitVec.ofNat 2 (parityLoop 32 v 0) = par2 v ∧ BitVec.ofNat 2 (parityLoopEarly 32 v 0) = par2 v ∧
    parityLoopMod4 32 v 0#2 = par2 v

/-- 40_parity.md R72: the parity from the counts of 1 bits at even and odd positions, bit by bit. -/
def Obligations.ParityFromBitCounts : Prop :=
  ∀ v : Block,
    let e := onesAt v 0 32
    let o := onesAt v 1 32
    e ≤ 32 ∧ o ≤ 32 ∧ digitSum v 32 = e + 2 * o ∧ (par2 v).toNat = (e + 2 * o) % 4 ∧
    (par2 v).getLsbD 0 = decide (e % 2 = 1) ∧ (par2 v).getLsbD 1 = decide ((o + e / 2) % 2 = 1) ∧
    (par2 v).getLsbD 0 = (List.range 32).foldr (fun i b => v.getLsbD (2 * i) ^^ b) false ∧
    (par2 v).getLsbD 1 = ((List.range 32).foldr (fun i b => v.getLsbD (2 * i + 1) ^^ b) false ^^ e.testBit 1)

/-- 40_parity.md R73 law 2: with no common 1 bits the parities add modulo 4; not in general. -/
def Obligations.ParityAddsOverDisjointBits : Prop :=
  (∀ a b : Block, a &&& b = 0#64 → par2 (a ||| b) = par2 a + par2 b) ∧
  (∃ a b : Block, par2 (a ||| b) ≠ par2 a + par2 b)

/-- 40_parity.md R73 law 3: the parity is the sum of the parities of the eight byte lanes. -/
def Obligations.ParityAddsOverLanes : Prop :=
  ∀ v : Block, par2 v = ((List.range 8).map fun i => par2 ((lane v i).setWidth 64)).foldl (· + ·) 0#2

/-- 40_parity.md R73 laws 4 and 5: a shift by whole digits that loses no 1 bit keeps the parity, so a padded block has
the parity of its unpadded bytes; a shift by an odd amount need not. -/
def Obligations.ParityUnderDigitShifts : Prop :=
  (∀ (v : Block) (k : Nat), v.toNat < 2 ^ (64 - 2 * k) → 2 * k ≤ 64 → par2 (v <<< (2 * k)) = par2 v) ∧
  (∀ (v : Block) (k : Nat), v.toNat % 2 ^ (2 * k) = 0 → par2 (v >>> (2 * k)) = par2 v) ∧
  (∀ (v : Block) (p : Nat), p ≤ 7 → v.toNat % 2 ^ (8 * p) = 0 → par2 (v >>> (8 * p)) = par2 v) ∧
  par2 (1#64 <<< 1) ≠ par2 1#64

/-- 40_parity.md R73 law 6: any permutation of the 32 digits keeps the parity, and so the order of the byte lanes does
not matter; the order of the two bits within a digit does. -/
def Obligations.ParityUnderDigitPermutations : Prop :=
  (∀ (v v' : Block) (σ : Equiv.Perm (Fin 32)), (∀ i : Fin 32, digit v' (σ i) = digit v i) → par2 v' = par2 v) ∧
  (∀ (v v' : Block) (σ : Equiv.Perm (Fin 8)), (∀ i : Fin 8, lane v' (σ i) = lane v i) → par2 v' = par2 v) ∧
  par2 1#64 ≠ par2 2#64

/-- 40_parity.md R74: a flipped bit and a changed digit change the parity, the four values of one digit give each parity
once, and two changed digits may leave it unchanged. -/
def Obligations.ParitySeesSingleDigitChanges : Prop :=
  (∀ (v : Block) (i : Nat), i < 64 → par2 (v ^^^ (1#64 <<< i)) ≠ par2 v) ∧
  (∀ (v v' : Block) (i : Nat), i < 32 → (∀ j, j < 32 → j ≠ i → digit v' j = digit v j) → digit v' i ≠ digit v i →
    par2 v' ≠ par2 v) ∧
  (∀ (v : Block) (i : Nat) (q : Parity), i < 32 → ∃! x : BitVec 2, par2 (setDigit v i x) = q) ∧
  (∃ (v v' : Block) (i j : Nat), i < j ∧ j < 32 ∧ digit v' i ≠ digit v i ∧ digit v' j ≠ digit v j ∧
    par2 v' = par2 v)

/-- 40_parity.md R75: the digit sum is at most 96, so a 7-bit accumulator holds it exactly, and the parity is its bits
1:0. -/
def Obligations.DigitSumFitsSevenBits : Prop :=
  ∀ v : Block, digitSum v 32 ≤ 96 ∧ (BitVec.ofNat 7 (digitSum v 32)).toNat = digitSum v 32 ∧
    par2 v = (BitVec.ofNat 7 (digitSum v 32)).extractLsb' 0 2

/-- 40_parity.md R76: PAR completes from every state, writes Q and ST and nothing else; its neighbours' words are
illegal; the corner cases and the worked example. -/
def Obligations.ParCommand : Prop :=
  decode 0x10#8 = .ok .par ∧
  (∀ s : State, exec .par s = .next { s with q := .ofNat 2 (parityOf s.d.toNat), st := 4#3 }) ∧
  (∀ (s : State) (a : Nat), 1 ≤ a → a ≤ 15 →
    performCommand (.ofNat 8 (0x10 + a)) s = .next { s with st := 3#3 }) ∧
  par2 0#64 = 0#2 ∧ par2 0xFFFFFFFFFFFFFFFF#64 = 0#2 ∧ digitSum 0xFFFFFFFFFFFFFFFF#64 32 = 96 ∧ par2 1#64 = 1#2 ∧
  par2 2#64 = 2#2 ∧ par2 3#64 = 3#2 ∧ par2 4#64 = 1#2 ∧ digitSum 0xD1854218EBBB0B51#64 32 = 43 ∧
  par2 0xD1854218EBBB0B51#64 = 3#2

/-! ## Slicing and merging -/

/-- 30_encoding.md R55: the six slots, most significant first, are the 64 data bits followed by the 2 parity bits, and
slot k is the 11 bits from 65 - 11k down to 55 - 11k. -/
def Obligations.SentenceIsBlockThenParity : Prop :=
  ∀ v : Block,
    let w := slice6 v
    w.w0 ++ w.w1 ++ w.w2 ++ w.w3 ++ w.w4 ++ w.w5 = v ++ par2 v ∧
    ∀ (k : Fin 6) (j : Nat), j < 11 → (w.get k).getLsbD j = (v ++ par2 v).getLsbD (55 - 11 * k.val + j)

/-- 41_encode.md R81: the source's encode procedure on a shrinking integer gives exactly `slice6`. -/
def Obligations.SerialSlicingIsSlice6 : Prop :=
  ∀ v : Block, slice6Serial v = slice6 v ∧ slice6 v = codesOf v

/-- 42_decode.md R92: the source's decode procedure on a growing integer gives the value of `merge6`, and never reaches
2^64 (R91). -/
def Obligations.SerialMergingIsMerge6 : Prop :=
  ∀ w : Sentence, mergeSerial w = (merge6 w).value.toNat ∧ mergeSerial w = valueOf w ∧ mergeSerial w < 2 ^ 64 ∧
    (merge6 w).embedded.toNat = w.w5.toNat % 4 ∧ (merge6 w).computed.toNat = parityOf (valueOf w)

/-- 41_encode.md R83: `slice6` is injective and `merge6` inverts it, with both parities equal to the block's. -/
def Obligations.MergeInvertsSlice : Prop :=
  (∀ v : Block, merge6 (slice6 v) = ⟨v, par2 v, par2 v⟩) ∧ (∀ v v' : Block, slice6 v = slice6 v' → v = v')

/-- 42_decode.md R94: on Sentences that verify `slice6` inverts `merge6`, so the two are a bijection between the blocks
and the valid Sentences. -/
def Obligations.SliceInvertsMergeOnValidSentences : Prop :=
  (∀ w : Sentence, w.verifies = true → slice6 (merge6 w).value = w) ∧
  (∀ v : Block, (slice6 v).verifies = true ∧ (merge6 (slice6 v)).value = v) ∧
  (∀ w : Sentence, w.verifies = true → ∃! v : Block, slice6 v = w)

/-- 41_encode.md R86: of the 2^66 Sentences exactly 2^64 are values of `slice6`; for any data bits exactly one of the
four parities is valid. -/
def Obligations.ValidSentencesAreOneInFour : Prop :=
  Nat.card Sentence = 2 ^ 66 ∧ Nat.card { w : Sentence // ∃ v : Block, slice6 v = w } = 2 ^ 64 ∧
  (∀ w : Sentence, (∃ v : Block, slice6 v = w) ↔ checksOut w) ∧
  (∀ (w : Sentence) (data9 : BitVec 9), ∃! q : Parity, ∃ v : Block, slice6 v = { w with w5 := data9 ++ q })

/-! ## ENC and DEC -/

/-- 41_encode.md R85: ENC completes from every state and writes W, Q, PAD, CNT and ST, not D; the words next to it are
illegal; the corner cases and the worked example. -/
def Obligations.EncCommand : Prop :=
  decode 0x20#8 = .ok .enc ∧
  (∀ s : State, exec .enc s = .next
    { s with w := codesOf s.d, q := .ofNat 2 (parityOf s.d.toNat), pad := 0#3, cnt := 8#4, st := 4#3 }) ∧
  (∀ (s : State) (a : Nat), 1 ≤ a → a ≤ 15 →
    performCommand (.ofNat 8 (0x20 + a)) s = .next { s with st := 3#3 }) ∧
  slice6 0#64 = ⟨0#11, 0#11, 0#11, 0#11, 0#11, 0#11⟩ ∧
  slice6 0xFFFFFFFFFFFFFFFF#64 = ⟨0x7FF#11, 0x7FF#11, 0x7FF#11, 0x7FF#11, 0x7FF#11, 0x7FC#11⟩ ∧
  slice6 1#64 = ⟨0#11, 0#11, 0#11, 0#11, 0#11, 5#11⟩ ∧ slice6 0x200#64 = ⟨0#11, 0#11, 0#11, 0#11, 1#11, 2#11⟩ ∧
  slice6 0x100#64 = ⟨0#11, 0#11, 0#11, 0#11, 0#11, 0x401#11⟩ ∧
  slice6 0xD1854218EBBB0B51#64 = ⟨0x68C#11, 0x150#11, 0x431#11, 0x6BB#11, 0x585#11, 0x547#11⟩ ∧
  (∀ s t : State, exec .enc s = .next t → exec .dec t = .next t ∧ exec .enc t = .next t)

/-- 42_decode.md R97: DEC completes from every state: with the block in D when the Sentence verifies, with Integrity in
ST and nothing else when it does not; the words next to it are illegal; corner cases and worked example. -/
def Obligations.DecCommand : Prop :=
  decode 0x40#8 = .ok .dec ∧
  (∀ s : State, checksOut s.w → exec .dec s = .next
    { s with d := .ofNat 64 (valueOf s.w), q := .ofNat 2 (parityOf (valueOf s.w)), pad := 0#3, cnt := 8#4,
             st := 4#3 }) ∧
  (∀ s : State, ¬ checksOut s.w → exec .dec s = .next { s with st := 1#3 }) ∧
  (∀ (s : State) (a : Nat), 1 ≤ a → a ≤ 15 →
    performCommand (.ofNat 8 (0x40 + a)) s = .next { s with st := 3#3 }) ∧
  checksOut ⟨0#11, 0#11, 0#11, 0#11, 0#11, 0#11⟩ ∧
  ¬ checksOut ⟨0x7FF#11, 0x7FF#11, 0x7FF#11, 0x7FF#11, 0x7FF#11, 0x7FF#11⟩ ∧
  checksOut ⟨0x7FF#11, 0x7FF#11, 0x7FF#11, 0x7FF#11, 0x7FF#11, 0x7FC#11⟩ ∧
  ¬ checksOut ⟨0#11, 0#11, 0#11, 0#11, 0#11, 1#11⟩ ∧ checksOut ⟨0#11, 0#11, 0#11, 0#11, 0#11, 5#11⟩ ∧
  (merge6 ⟨0x68C#11, 0x150#11, 0x431#11, 0x6BB#11, 0x585#11, 0x547#11⟩ = ⟨0xD1854218EBBB0B51#64, 3#2, 3#2⟩) ∧
  (merge6 ⟨0x68C#11, 0x150#11, 0x431#11, 0x6BB#11, 0x585#11, 0x546#11⟩ = ⟨0xD1854218EBBB0B51#64, 2#2, 3#2⟩) ∧
  (∀ s t : State, checksOut s.w → exec .dec s = .next t → exec .enc t = .next t)

/-- 42_decode.md R95: DEC succeeds on exactly the values of `slice6` and fails with Integrity on exactly the other
3 * 2^64 Sentences; for fixed data bits exactly one of the four values of `w[5][1:0]` succeeds. -/
def Obligations.DecAcceptsExactlyTheValidSentences : Prop :=
  (∀ s : State, ∃ t : State, exec .dec s = .next t ∧
    (t.st = 4#3 ↔ ∃ v : Block, slice6 v = s.w) ∧ (t.st = 1#3 ↔ ¬ ∃ v : Block, slice6 v = s.w)) ∧
  Nat.card { w : Sentence // ¬ ∃ v : Block, slice6 v = w } = 3 * 2 ^ 64 ∧
  (∀ (s : State) (data9 : BitVec 9), ∃! q : Parity, ∃ t : State,
    exec .dec { s with w := { s.w with w5 := data9 ++ q } } = .next t ∧ t.st = 4#3)

/-- 42_decode.md R96 item 1: a Sentence that differs from a correctly encoded one in exactly one of its 66 bits fails
with Integrity. -/
def Obligations.SingleBitErrorsAreDetected : Prop :=
  ∀ (s : State) (v : Block) (k : Fin 6) (j : Nat), j < 11 →
    s.w = (slice6 v).set k ((slice6 v).get k ^^^ (1#11 <<< j)) → exec .dec s = .next { s with st := 1#3 }

/-- 42_decode.md R96 item 2: with exactly one slot replaced by another code, DEC fails with Integrity or succeeds with a
different value, never with the original. -/
def Obligations.SubstitutedSlotNeverDecodesToTheOriginal : Prop :=
  ∀ (s : State) (v : Block) (k : Fin 6) (c : Code), c ≠ (slice6 v).get k → s.w = (slice6 v).set k c →
    exec .dec s = .next { s with st := 1#3 } ∨
    ∃ t : State, exec .dec s = .next t ∧ t.st = 4#3 ∧ t.d = (merge6 s.w).value ∧ t.d ≠ v

/-- 42_decode.md R96 item 3: at any one slot, of the 2047 wrong codes exactly 511 verify and 1536 fail. -/
def Obligations.SubstitutionEscapeCount : Prop :=
  ∀ (v : Block) (k : Fin 6),
    (let wrong := ((List.range 2048).map (BitVec.ofNat 11)).filter fun c => c != (slice6 v).get k
     wrong.length = 2047 ∧ (wrong.filter fun c => ((slice6 v).set k c).verifies).length = 511 ∧
     (wrong.filter fun c => !((slice6 v).set k c).verifies).length = 1536)

/-! ## ENCP and DECP -/

/-- 43_padding.md R100: `zext_block` keeps the first n lanes and forces the others to zero: lane by lane, by division
and by the masks of the table. -/
def Obligations.ZeroExtensionKeepsTheFirstLanes : Prop :=
  ∀ (v : Block) (n : Nat), 1 ≤ n → n ≤ 8 →
    (∀ i, i < 8 → lane (zextBlock v n) i = if i < n then lane v i else 0#8) ∧
    zextBlock v n = keptBytes v n ∧
    some (zextBlock v n) =
      ([0xFF00000000000000#64, 0xFFFF000000000000#64, 0xFFFFFF0000000000#64, 0xFFFFFFFF00000000#64,
        0xFFFFFFFFFF000000#64, 0xFFFFFFFFFFFF0000#64, 0xFFFFFFFFFFFFFF00#64, 0xFFFFFFFFFFFFFFFF#64][n - 1]?).map
        (v &&& ·)

/-- 43_padding.md R103: ENCP n, for n in 1..8, completes from every state: the zero-extended block in D, its Sentence in
W, its parity in Q, 8 - n in PAD, n in CNT; out of that range it raises OperandRange; the corner cases of a short
block and the worked example. -/
def Obligations.EncpCommand : Prop :=
  (∀ (s : State) (n : Nat), 1 ≤ n → n ≤ 8 →
    decode (.ofNat 8 (0x30 + n)) = .ok (.encp n) ∧
    exec (.encp n) s = .next
      { s with d := keptBytes s.d n, w := codesOf (keptBytes s.d n),
               q := .ofNat 2 (parityOf (keptBytes s.d n).toNat), pad := .ofNat 3 (8 - n), cnt := .ofNat 4 n,
               st := 4#3 } ∧
    (s.d.toNat % 2 ^ (8 * (8 - n)) = 0 → keptBytes s.d n = s.d) ∧
    (keptBytes s.d n = 0#64 → codesOf (keptBytes s.d n) = ⟨0#11, 0#11, 0#11, 0#11, 0#11, 0#11⟩) ∧
    (n ≤ 6 → (codesOf (keptBytes s.d n)).w5.toNat = parityOf (keptBytes s.d n).toNat) ∧
    (n = 7 → (codesOf (keptBytes s.d n)).w5.toNat / 4 = s.d.toNat / 256 % 2 * 256) ∧
    (n = 6 → (codesOf (keptBytes s.d n)).w4.toNat % 128 = 0) ∧
    (n ≤ 5 → (codesOf (keptBytes s.d n)).w4 = 0#11)) ∧
  (∀ (s : State) (n : Nat), n = 0 ∨ 9 ≤ n → exec (.encp n) s = .next { s with st := 2#3 }) ∧
  (∀ s : State, s.d = 0x000000666F6FDEAD#64 → exec (.encp 6) s = .next
    { s with d := 0x000000666F6F0000#64, w := ⟨0x000#11, 0x000#11, 0x0CC#11, 0x6F6#11, 0x780#11, 0x000#11⟩, q := 0#2,
             pad := 2#3, cnt := 6#4, st := 4#3 })

/-- 43_padding.md R104: ENCP with n = 0 or n in 9..15 raises OperandRange and writes nothing else. -/
def Obligations.EncpOutOfRange : Prop :=
  ∀ (s : State) (n : Nat), n = 0 ∨ 9 ≤ n → exec (.encp n) s = .next { s with st := 2#3 }

/-- 43_padding.md R105: ENCP 8 has exactly the effect of ENC on every state. -/
def Obligations.EncpEightIsEnc : Prop :=
  ∀ s : State, zextBlock s.d 8 = s.d ∧ exec (.encp 8) s = exec .enc s

/-- 43_padding.md R107: DECP p, for p in 0..7, completes from every state: when the Sentence verifies, D holds the value
divided by 2^(8p); when it does not, Integrity and nothing else; above 7, OperandRange. Whether it verifies does not
depend on p. The remark on Q, and the worked example. -/
def Obligations.DecpCommand : Prop :=
  (∀ (s : State) (p : Nat), p ≤ 7 →
    decode (.ofNat 8 (0x50 + p)) = .ok (.decp p) ∧
    (checksOut s.w → exec (.decp p) s = .next
      { s with d := .ofNat 64 (valueOf s.w / 2 ^ (8 * p)), q := .ofNat 2 (parityOf (valueOf s.w)), pad := .ofNat 3 p,
               cnt := .ofNat 4 (8 - p), st := 4#3 }) ∧
    (¬ checksOut s.w → exec (.decp p) s = .next { s with st := 1#3 }) ∧
    (valueOf s.w % 2 ^ (8 * p) = 0 → parityOf (valueOf s.w / 2 ^ (8 * p)) = parityOf (valueOf s.w))) ∧
  (∀ (s : State) (p : Nat), 8 ≤ p → exec (.decp p) s = .next { s with st := 2#3 }) ∧
  (∀ s : State, s.w = ⟨0x000#11, 0x000#11, 0x0CC#11, 0x6F6#11, 0x780#11, 0x000#11⟩ → exec (.decp 2) s = .next
    { s with d := 0x0000000000666F6F#64, q := 0#2, pad := 2#3, cnt := 6#4, st := 4#3 })

/-- 43_padding.md R108: DECP with p in 8..15 raises OperandRange and writes nothing else, also when the Sentence would
not verify (60_exceptions.md R135). -/
def Obligations.DecpOutOfRange : Prop :=
  ∀ (s : State) (p : Nat), 8 ≤ p → exec (.decp p) s = .next { s with st := 2#3 }

/-- 43_padding.md R110: DECP 0 has exactly the effect of DEC on every state. -/
def Obligations.DecpZeroIsDec : Prop :=
  ∀ s : State, exec (.decp 0) s = exec .dec s

/-- 43_padding.md R109: ENCP n then DECP (8 - n), issued by the host one after the other, both succeed and leave the n
source bytes right-justified in D, whatever the state they start from. -/
def Obligations.PaddedCommandsRoundTrip : Prop :=
  ∀ (s : State) (n : Nat) (rest : List HostAction), 1 ≤ n → n ≤ 8 → ∃ t u : State,
    Sys2Proof.core.run 1 { s with pending := issue (.encp n) :: issue (.decp (8 - n)) :: rest } = .next t ∧
    t.st = 4#3 ∧
    Sys2Proof.core.run 2 { s with pending := issue (.encp n) :: issue (.decp (8 - n)) :: rest } = .next u ∧
    u = { s with d := s.d >>> (8 * (8 - n)), w := slice6 (zextBlock s.d n), pad := .ofNat 3 (8 - n),
                 cnt := .ofNat 4 n, q := par2 (zextBlock s.d n), st := 4#3, pending := rest } ∧
    (u.d = s.d → n = 8 ∨ s.d = 0#64) ∧ (n = 8 → u.d = s.d)

/-- 43_padding.md R111: no byte that DECP discards is examined. A wrong p on a Sentence that ENCP produced is not
detected, and a Sentence with non-zero discarded bytes succeeds. -/
def Obligations.DiscardedBytesAreNotExamined : Prop :=
  (∀ (s t : State) (n p : Nat), 1 ≤ n → n ≤ 8 → p ≤ 7 → exec (.encp n) s = .next t →
    exec (.decp p) t = .next
      { t with d := zextBlock s.d n >>> (8 * p), pad := .ofNat 3 p, cnt := .ofNat 4 (8 - p) }) ∧
  (∀ s : State, s.w = ⟨0#11, 0#11, 0#11, 0#11, 0#11, 5#11⟩ →
    exec (.decp 1) s = .next { s with d := 0#64, q := 1#2, pad := 1#3, cnt := 7#4, st := 4#3 })

/-! ## Errors and status -/

/-- 10_state.md R24: a command that ends in an error writes ST and no other register. -/
def Obligations.FailedCommandWritesStatusOnly : Prop :=
  ∀ (c : CommandWord) (s t : State), performCommand c s = .next t → t.err ≠ 0#2 →
    t = { s with st := t.st } ∧ t.vld = false

/-- Every command leaves ST at success or at one of the three errors, and ST changes to 0 in a step only by reset
(10_state.md R16; 70_reset_and_hazards.md R151). -/
def Obligations.StatusValues : Prop :=
  (∀ (c : CommandWord) (s : State), ∃ t : State, performCommand c s = .next t ∧
    (t.st = 4#3 ∨ t.st = 1#3 ∨ t.st = 2#3 ∨ t.st = 3#3)) ∧
  (∀ s t : State, step s = .next t → t.st = 0#3 → s.st = 0#3 ∨ s.pending.head? = some .reset)

/-- An error is not sticky: every command word is performed exactly as it would be with any other value in ST
(60_exceptions.md R137; 10_state.md R16). -/
def Obligations.ErrorsAreNotSticky : Prop :=
  ∀ (c : CommandWord) (s : State) (x : BitVec 3), performCommand c { s with st := x } = performCommand c s

/-- 60_exceptions.md R135: a reserved word is IllegalCommand whatever the state; DECP's range is checked before the
Sentence is verified; a command in range reports Integrity exactly when its Sentence does not verify. -/
def Obligations.ErrorPriority : Prop :=
  (∀ (c : CommandWord) (s t : State), performCommand c s = .next t →
    (t.err = 3#2 ↔ (decode c).toOption = none) ∧
    (t.err = 2#2 ↔ ∃ i, decode c = .ok i ∧ accepted i = false) ∧
    (t.err = 1#2 ↔ ∃ i, decode c = .ok i ∧ accepted i = true ∧ (i = .dec ∨ ∃ p, i = .decp p) ∧ ¬ checksOut s.w))

/-- 10_state.md R23: the results of a command are a function of its operand registers and its immediate; what it does
not write it leaves. -/
def Obligations.CommandsReadOnlyTheirOperands : Prop :=
  (∀ s s' t t' : State, s.d = s'.d → exec .par s = .next t → exec .par s' = .next t' →
    t.q = t'.q ∧ t.st = t'.st ∧ t.d = s.d ∧ t.w = s.w ∧ t.pad = s.pad ∧ t.cnt = s.cnt) ∧
  (∀ s s' t t' : State, s.d = s'.d → exec .enc s = .next t → exec .enc s' = .next t' →
    t.w = t'.w ∧ t.pad = t'.pad ∧ t.cnt = t'.cnt ∧ t.q = t'.q ∧ t.st = t'.st ∧ t.d = s.d) ∧
  (∀ (n : Nat) (s s' t t' : State), s.d = s'.d → exec (.encp n) s = .next t → exec (.encp n) s' = .next t' →
    t.st = t'.st ∧ t.d = t'.d ∧
    (t.vld = true → t.w = t'.w ∧ t.pad = t'.pad ∧ t.cnt = t'.cnt ∧ t.q = t'.q)) ∧
  (∀ s s' t t' : State, s.w = s'.w → exec .dec s = .next t → exec .dec s' = .next t' →
    t.st = t'.st ∧ t.w = s.w ∧
    (t.vld = true → t.d = t'.d ∧ t.pad = t'.pad ∧ t.cnt = t'.cnt ∧ t.q = t'.q)) ∧
  (∀ (p : Nat) (s s' t t' : State), s.w = s'.w → exec (.decp p) s = .next t → exec (.decp p) s' = .next t' →
    t.st = t'.st ∧ t.w = s.w ∧
    (t.vld = true → t.d = t'.d ∧ t.pad = t'.pad ∧ t.cnt = t'.cnt ∧ t.q = t'.q))

/-- 60_exceptions.md R138: a command reissued at once gives the same state again, error or not. -/
def Obligations.ReissuingChangesNothing : Prop :=
  ∀ (c : CommandWord) (s t : State), performCommand c s = .next t → performCommand c t = .next t

/-! ## Invariants -/

/-- The invariants I-1 and I-2 (10_state.md R18, R27) are kept by every step, from every state that meets them. -/
def Obligations.EveryStepKeepsConsistency : Prop :=
  ∀ s t : State, s.consistent → step s = .next t → t.consistent

/-- The reset state meets I-1 and I-2, whatever the host is about to do (10_state.md R26, R27). -/
def Obligations.ResetIsConsistent : Prop :=
  ∀ (acts : List HostAction) (answers : List PortData),
    ({ State.reset with pending := acts, answers := answers } : State).consistent

/-- 10_state.md R18: in every state reachable from reset, by any accesses of the host, CNT = 8 - PAD, PAD is in 0..7 and
CNT is in 1..8. -/
def Obligations.ReachableCountsAgree : Prop :=
  ∀ (acts : List HostAction) (k : Nat) (t : State),
    Sys2Proof.core.run k { State.reset with pending := acts } = .next t →
    t.cnt.toNat = 8 - t.pad.toNat ∧ t.pad.toNat ≤ 7 ∧ 1 ≤ t.cnt.toNat ∧ t.cnt.toNat ≤ 8

/-- 10_state.md R27 I-3, I-4 and I-5: what holds right after a successful encode or decode. -/
def Obligations.CodecPostconditions : Prop :=
  (∀ (i : Instr) (s t : State), exec i s = .next t → t.vld = true → (i = .enc ∨ ∃ n, i = .encp n) →
    merge6 t.w = ⟨t.d, t.q, t.q⟩) ∧
  (∀ (n : Nat) (s t : State), exec (.encp n) s = .next t → t.vld = true → t.d.toNat % 2 ^ (8 * (8 - n)) = 0) ∧
  (∀ s t : State, exec .dec s = .next t → t.vld = true →
    slice6 t.d = t.w ∧ t.q = par2 t.d ∧ t.q = t.w.w5.extractLsb' 0 2) ∧
  (∀ (p : Nat) (s t : State), exec (.decp p) s = .next t → t.vld = true → t.d.toNat < 2 ^ (8 * (8 - p)))

/-! ## The whole system: the host of 44_host_driver.md over the machine -/

/-- The source's round trip for aligned input (95_test_vectors.md section 1; 44_host_driver.md R121, R123, R124): for
any dictionary the spec allows, any bytes of a length that is a multiple of 8, and any states of the units that encode
and decode, decoding the encoded tokens gives the bytes. It rests on the model's choices for the host: the order of its
reads (notes/assumptions/11.md) and upper-casing of ASCII letters only (notes/assumptions/12.md). -/
def Obligations.AlignedBytesRoundTrip : Prop :=
  ∀ (dict : Dictionary) (bytes : List Byte) (s s' : State), dict.Lawful → bytes.length % 8 = 0 →
    ∃ (tokens : List Token) (t t' : State), encodeBytes dict false bytes s = .ok (tokens, t) ∧
      tokens.length = 6 * (bytes.length / 8) ∧ decodeTokens dict false tokens s' = .ok (bytes, t')

/-- The source's round trip for padded input of any length (95_test_vectors.md section 1; 44_host_driver.md R118, R119,
R121, R123, R124): the same, with a marker on the last token; the number of Sentences is ceil(L / 8). It rests on the
model's choices for the host: zero-filled lanes, the order of its reads and DECP 0 where no marker stands
(notes/assumptions/11.md), the digits' character codes and upper-casing of ASCII letters only (notes/assumptions/12.md,
PRESUMED). -/
def Obligations.PaddedBytesRoundTrip : Prop :=
  ∀ (dict : Dictionary) (bytes : List Byte) (s s' : State), dict.Lawful →
    ∃ (tokens : List Token) (t t' : State), encodeBytes dict true bytes s = .ok (tokens, t) ∧
      tokens.length = 6 * ((bytes.length + 7) / 8) ∧ decodeTokens dict true tokens s' = .ok (bytes, t')

/-- The host-side errors (44_host_driver.md R116, R121, R123): a token of 5 or more characters is InvalidWord whatever
the table, one of 1 to 4 characters whose upper case is no word is UnknownWord, a token count that is no multiple of 6
and a byte count that is no multiple of 8 without padding are Format errors. Six words whose codes do not verify are an
Integrity error, marked or not, in any group whose earlier groups decode: the last group of a decode with padding allowed
is looked up without its marker and issues DECP, every other group DEC. Upper-casing acts on ASCII letters only, and a
marker is the character 0x30 + p (PRESUMED, notes/assumptions/12.md); that DECP 0 is issued where no marker stands is
notes/assumptions/11.md, and that an unpadded encode raises Format before any block notes/assumptions/5.md. -/
def Obligations.HostErrorsAreClassified : Prop :=
  (∀ (dict : Dictionary) (token : Token), 5 ≤ token.length → lookupByWord dict token = .error .invalidWord) ∧
  (∀ (dict : Dictionary) (token : Token), 1 ≤ token.length → token.length ≤ 4 →
    (∀ c, dict.wordOf c ≠ token.map Char.toUpper) → lookupByWord dict token = .error .unknownWord) ∧
  (∀ (dict : Dictionary) (token : Token) (c : Code), dict.Lawful → dict.wordOf c = token.map Char.toUpper →
    lookupByWord dict token = .ok c) ∧
  (∀ (dict : Dictionary) (marked : Bool) (t0 t1 t2 t3 t4 t5 : Token) (codes : Sentence) (s : State),
    lookupSix dict t0 t1 t2 t3 t4 (if marked then (stripMarker t5).1 else t5) = .ok codes → ¬ checksOut codes →
    decodeSentence dict [t0, t1, t2, t3, t4, t5] marked s = .error .integrity) ∧
  (∀ (dict : Dictionary) (allow : Bool) (front rest : List Token) (t0 t1 t2 t3 t4 t5 : Token) (codes : Sentence)
      (bytes : List Byte) (s u : State),
    decodeTokens dict false front s = .ok (bytes, u) → rest.length % 6 = 0 →
    lookupSix dict t0 t1 t2 t3 t4 (if allow && rest.isEmpty then (stripMarker t5).1 else t5) = .ok codes →
    ¬ checksOut codes →
    decodeTokens dict allow (front ++ [t0, t1, t2, t3, t4, t5] ++ rest) s = .error .integrity) ∧
  (∀ (dict : Dictionary) (allow : Bool) (tokens : List Token) (s : State), tokens.length % 6 ≠ 0 →
    decodeTokens dict allow tokens s = .error .format) ∧
  (∀ (dict : Dictionary) (bytes : List Byte) (s : State), bytes.length % 8 ≠ 0 →
    encodeBytes dict false bytes s = .error .format)
end

