-- ==== Sys2Proof/Laws/Parity.lean ====
section
/-! SUPPORT. What a digit, the digit sum and the parity are: by division, by bits and as a sum over the 32 positions
(40_parity.md R70, R72). -/

namespace Sys2Proof.Machine

theorem digit_eq_div (v : Block) (i : Nat) : digit v i = v.toNat / 4 ^ i % 4 := by
  simp [digit, BitVec.extractLsb'_toNat, Nat.shiftRight_eq_div_pow, pow_mul]

theorem digit_lt (v : Block) (i : Nat) : digit v i < 4 := by
  rw [digit_eq_div]; omega

theorem digit_eq_bits (v : Block) (i : Nat) :
    digit v i = (v.getLsbD (2 * i)).toNat + 2 * (v.getLsbD (2 * i + 1)).toNat := by
  rw [digit_eq_div, show (4 : Nat) ^ i = 2 ^ (2 * i) by rw [pow_mul]; norm_num]
  simp only [BitVec.getLsbD, Nat.testBit_eq_decide_div_mod_eq, pow_succ, ← Nat.div_div_eq_div_mul]
  have := Nat.mod_two_eq_zero_or_one (v.toNat / 2 ^ (2 * i))
  have := Nat.mod_two_eq_zero_or_one (v.toNat / 2 ^ (2 * i) / 2)
  generalize v.toNat / 2 ^ (2 * i) = x at *
  rcases ‹x % 2 = 0 ∨ x % 2 = 1› with h | h <;> rcases ‹x / 2 % 2 = 0 ∨ x / 2 % 2 = 1› with g | g <;>
    simp [h, g] <;> omega

theorem digit_congr {v v' : Block} {i j : Nat} (h0 : v.getLsbD (2 * i) = v'.getLsbD (2 * j))
    (h1 : v.getLsbD (2 * i + 1) = v'.getLsbD (2 * j + 1)) : digit v i = digit v' j := by
  rw [digit_eq_bits, digit_eq_bits, h0, h1]

theorem digitSum_eq_sum (v : Block) (k : Nat) : digitSum v k = ∑ i ∈ Finset.range k, digit v i := by
  induction k with
  | zero => rfl
  | succ k ih => rw [digitSum, Finset.sum_range_succ, ih]

theorem digitSum_eq_list_sum (v : Block) (k : Nat) :
    digitSum v k = ((List.range k).map fun i => v.toNat / 4 ^ i % 4).sum := by
  induction k with
  | zero => rfl
  | succ k ih => simp [digitSum, List.range_succ, ih, digit_eq_div]

theorem par2_toNat (v : Block) : (par2 v).toNat = digitSum v 32 % 4 := by
  simp [par2, BitVec.toNat_ofNat]

theorem par2_toNat_eq_parityOf (v : Block) : (par2 v).toNat = parityOf v.toNat := by
  rw [par2_toNat, digitSum_eq_list_sum, parityOf, digitTotal]

theorem par2_eq_ofNat_parityOf (v : Block) : par2 v = BitVec.ofNat 2 (parityOf v.toNat) := by
  apply BitVec.eq_of_toNat_eq
  rw [par2_toNat_eq_parityOf, BitVec.toNat_ofNat, parityOf]
  omega

theorem par2_eq_iff (v v' : Block) : par2 v = par2 v' ↔ digitSum v 32 % 4 = digitSum v' 32 % 4 := by
  rw [← BitVec.toNat_inj, par2_toNat, par2_toNat]

/-- The digit sum splits off any one digit. -/
theorem digitSum_split (v : Block) {i : Nat} (hi : i < 32) :
    digitSum v 32 = digit v i + ∑ j ∈ (Finset.range 32).erase i, digit v j := by
  rw [digitSum_eq_sum, Finset.add_sum_erase _ _ (Finset.mem_range.mpr hi)]

/-- Blocks that differ in one digit only: their digit sums differ by those digits. -/
theorem digitSum_of_one_digit {v v' : Block} {i : Nat} (hi : i < 32)
    (h : ∀ j, j < 32 → j ≠ i → digit v' j = digit v j) : digitSum v' 32 + digit v i = digitSum v 32 + digit v' i := by
  have others : ∑ j ∈ (Finset.range 32).erase i, digit v' j = ∑ j ∈ (Finset.range 32).erase i, digit v j :=
    Finset.sum_congr rfl fun j hj => h j (Finset.mem_range.mp (Finset.mem_of_mem_erase hj)) (Finset.ne_of_mem_erase hj)
  rw [digitSum_split v hi, digitSum_split v' hi, others]
  omega

theorem digit_or_disjoint {a b : Block} (h : a &&& b = 0#64) (i : Nat) :
    digit (a ||| b) i = digit a i + digit b i := by
  have key : ∀ n, (a.getLsbD n && b.getLsbD n) = false := fun n => by
    rw [← BitVec.getLsbD_and, h, BitVec.getLsbD_zero]
  have h0 := key (2 * i)
  have h1 := key (2 * i + 1)
  simp only [digit_eq_bits, BitVec.getLsbD_or]
  revert h0 h1
  cases a.getLsbD (2 * i) <;> cases b.getLsbD (2 * i) <;> cases a.getLsbD (2 * i + 1) <;>
    cases b.getLsbD (2 * i + 1) <;> simp

theorem digitSum_or_disjoint {a b : Block} (h : a &&& b = 0#64) (k : Nat) :
    digitSum (a ||| b) k = digitSum a k + digitSum b k := by
  simp only [digitSum_eq_sum, digit_or_disjoint h, Finset.sum_add_distrib]

end Sys2Proof.Machine
end

