-- ==== Sys2Proof/Laws/Sentence.lean ====
section
/-! SUPPORT. What slicing, merging, zero-extending and unpadding are, once as arithmetic: the lemmas later proofs cite
instead of unfolding the definitions (41_encode.md R80; 42_decode.md R90; 43_padding.md R100, R106). -/

namespace Sys2Proof.Machine

/-- The six slots of `slice6`, as numbers. -/
theorem slice6_toNat (v : Block) :
    (slice6 v).w0.toNat = v.toNat / 2 ^ 53 ∧ (slice6 v).w1.toNat = v.toNat / 2 ^ 42 % 2048 ∧
    (slice6 v).w2.toNat = v.toNat / 2 ^ 31 % 2048 ∧ (slice6 v).w3.toNat = v.toNat / 2 ^ 20 % 2048 ∧
    (slice6 v).w4.toNat = v.toNat / 2 ^ 9 % 2048 ∧ (slice6 v).w5.toNat = v.toNat % 512 * 4 + (par2 v).toNat := by
  have hv := v.isLt
  refine ⟨?_, ?_, ?_, ?_, ?_, ?_⟩
  · simp [slice6, BitVec.extractLsb'_toNat, Nat.shiftRight_eq_div_pow]; omega
  · simp [slice6, BitVec.extractLsb'_toNat, Nat.shiftRight_eq_div_pow]
  · simp [slice6, BitVec.extractLsb'_toNat, Nat.shiftRight_eq_div_pow]
  · simp [slice6, BitVec.extractLsb'_toNat, Nat.shiftRight_eq_div_pow]
  · simp [slice6, BitVec.extractLsb'_toNat, Nat.shiftRight_eq_div_pow]
  · have hp := (par2 v).isLt
    simp only [slice6, BitVec.toNat_append, BitVec.extractLsb'_toNat, Nat.shiftRight_zero]
    rw [← Nat.shiftLeft_add_eq_or_of_lt hp, Nat.shiftLeft_eq]

/-- The value of a Sentence, as a number. -/
theorem Sentence.value_toNat (w : Sentence) : w.value.toNat = valueOf w := by
  have h1 := w.w1.isLt
  have h2 := w.w2.isLt
  have h3 := w.w3.isLt
  have h4 := w.w4.isLt
  have h5 : (w.w5.extractLsb' 2 9).toNat = w.w5.toNat / 4 := by
    have := w.w5.isLt
    simp [BitVec.extractLsb'_toNat, Nat.shiftRight_eq_div_pow]; omega
  have h5' := (w.w5.extractLsb' 2 9).isLt
  simp only [Sentence.value, BitVec.toNat_append]
  rw [← Nat.shiftLeft_add_eq_or_of_lt h1, ← Nat.shiftLeft_add_eq_or_of_lt h2, ← Nat.shiftLeft_add_eq_or_of_lt h3,
    ← Nat.shiftLeft_add_eq_or_of_lt h4, ← Nat.shiftLeft_add_eq_or_of_lt h5', h5]
  simp only [Nat.shiftLeft_eq, valueOf]

/-- The embedded parity, as a number. -/
theorem embedded_toNat (w : Sentence) : (merge6 w).embedded.toNat = w.w5.toNat % 4 := by
  simp [merge6, BitVec.extractLsb'_toNat]

/-- The computed parity, as a number. -/
theorem computed_toNat (w : Sentence) : (merge6 w).computed.toNat = parityOf (valueOf w) := by
  rw [merge6, par2_toNat_eq_parityOf, Sentence.value_toNat]

/-- A Sentence verifies exactly when the arithmetic check of 42_decode.md R93 holds. -/
theorem embedded_eq_computed_iff (w : Sentence) : (merge6 w).embedded = (merge6 w).computed ↔ checksOut w := by
  rw [← BitVec.toNat_inj, embedded_toNat, computed_toNat]

theorem Sentence.verifies_iff (w : Sentence) : w.verifies = true ↔ checksOut w := by
  rw [Sentence.verifies, beq_iff_eq, embedded_eq_computed_iff]

/-- Zero-extension, bit by bit: the low `8 (8 - n)` bits cleared. -/
theorem zextBlock_getLsbD (v : Block) (n i : Nat) :
    (zextBlock v n).getLsbD i = (v.getLsbD i && decide (8 * (8 - n) ≤ i)) := by
  by_cases h : i < 64
  · rw [zextBlock, BitVec.getLsbD_and, BitVec.getLsbD_not, BitVec.getLsbD_ofNat, Nat.testBit_two_pow_sub_one]
    by_cases hi : 8 * (8 - n) ≤ i
    · simp [h, hi, Nat.not_lt.mpr hi]
    · simp [h, hi, Nat.lt_of_not_le hi]
  · rw [BitVec.getLsbD_of_ge _ i (by omega), BitVec.getLsbD_of_ge _ i (by omega), Bool.false_and]

/-- Zero-extension, as a number. -/
theorem zextBlock_toNat (v : Block) (n : Nat) :
    (zextBlock v n).toNat = v.toNat / 2 ^ (8 * (8 - n)) * 2 ^ (8 * (8 - n)) := by
  apply Nat.eq_of_testBit_eq
  intro i
  rw [← Nat.shiftRight_eq_div_pow, ← Nat.shiftLeft_eq, Nat.testBit_shiftLeft, Nat.testBit_shiftRight,
    BitVec.testBit_toNat, zextBlock_getLsbD]
  by_cases hi : 8 * (8 - n) ≤ i
  · simp [hi, BitVec.testBit_toNat, Nat.add_sub_cancel' hi]
  · simp [hi]

/-- The unpadded value, as a number (43_padding.md R106). -/
theorem unpad_value_toNat (v : Block) (p : Nat) : (unpad v p).1.toNat = v.toNat / 2 ^ (8 * p) := by
  simp [unpad, Nat.shiftRight_eq_div_pow]

theorem unpad_count (v : Block) (p : Nat) : (unpad v p).2 = 8 - p := rfl

@[simp] theorem Sentence.get_set_same (w : Sentence) (k : Fin 6) (c : Code) : (w.set k c).get k = c := by
  fin_cases k <;> rfl

theorem Sentence.get_set_other (w : Sentence) {k j : Fin 6} (h : j ≠ k) (c : Code) : (w.set k c).get j = w.get j := by
  fin_cases k <;> fin_cases j <;> first | rfl | exact absurd rfl h

@[simp] theorem Sentence.set_get (w : Sentence) (k : Fin 6) : w.set k (w.get k) = w := by
  fin_cases k <;> rfl

end Sys2Proof.Machine
end

