-- ==== Sys2Proof/Laws/State.lean ====
section
/-! SUPPORT. One lemma per field per named update of the state, true by unfolding the update once. -/

namespace Sys2Proof.Machine

/-! ### raise -/

@[simp] theorem raise_d (e : CommandError) (s : State) : (raise e s).d = s.d := rfl
@[simp] theorem raise_w (e : CommandError) (s : State) : (raise e s).w = s.w := rfl
@[simp] theorem raise_pad (e : CommandError) (s : State) : (raise e s).pad = s.pad := rfl
@[simp] theorem raise_cnt (e : CommandError) (s : State) : (raise e s).cnt = s.cnt := rfl
@[simp] theorem raise_q (e : CommandError) (s : State) : (raise e s).q = s.q := rfl
@[simp] theorem raise_st (e : CommandError) (s : State) : (raise e s).st = statusWord false e.code := rfl
@[simp] theorem raise_pending (e : CommandError) (s : State) : (raise e s).pending = s.pending := rfl
@[simp] theorem raise_answers (e : CommandError) (s : State) : (raise e s).answers = s.answers := rfl

/-! ### succeed -/

@[simp] theorem succeed_d (s : State) : (succeed s).d = s.d := rfl
@[simp] theorem succeed_w (s : State) : (succeed s).w = s.w := rfl
@[simp] theorem succeed_pad (s : State) : (succeed s).pad = s.pad := rfl
@[simp] theorem succeed_cnt (s : State) : (succeed s).cnt = s.cnt := rfl
@[simp] theorem succeed_q (s : State) : (succeed s).q = s.q := rfl
@[simp] theorem succeed_st (s : State) : (succeed s).st = 4#3 := rfl
@[simp] theorem succeed_pending (s : State) : (succeed s).pending = s.pending := rfl
@[simp] theorem succeed_answers (s : State) : (succeed s).answers = s.answers := rfl

/-! ### encodeResults -/

@[simp] theorem encodeResults_d (b : Block) (n : Nat) (s : State) : (encodeResults b n s).d = s.d := rfl
@[simp] theorem encodeResults_w (b : Block) (n : Nat) (s : State) : (encodeResults b n s).w = slice6 b := rfl
@[simp] theorem encodeResults_pad (b : Block) (n : Nat) (s : State) : (encodeResults b n s).pad = paddingOf n := rfl
@[simp] theorem encodeResults_cnt (b : Block) (n : Nat) (s : State) : (encodeResults b n s).cnt = BitVec.ofNat 4 n := rfl
@[simp] theorem encodeResults_q (b : Block) (n : Nat) (s : State) : (encodeResults b n s).q = par2 b := rfl
@[simp] theorem encodeResults_st (b : Block) (n : Nat) (s : State) : (encodeResults b n s).st = 4#3 := rfl
@[simp] theorem encodeResults_pending (b : Block) (n : Nat) (s : State) : (encodeResults b n s).pending = s.pending := rfl
@[simp] theorem encodeResults_answers (b : Block) (n : Nat) (s : State) : (encodeResults b n s).answers = s.answers := rfl

/-! ### decodeResults -/

@[simp] theorem decodeResults_d (b : Block) (parity : Parity) (p count : Nat) (s : State) : (decodeResults b parity p count s).d = b := rfl
@[simp] theorem decodeResults_w (b : Block) (parity : Parity) (p count : Nat) (s : State) : (decodeResults b parity p count s).w = s.w := rfl
@[simp] theorem decodeResults_pad (b : Block) (parity : Parity) (p count : Nat) (s : State) : (decodeResults b parity p count s).pad = BitVec.ofNat 3 p := rfl
@[simp] theorem decodeResults_cnt (b : Block) (parity : Parity) (p count : Nat) (s : State) : (decodeResults b parity p count s).cnt = BitVec.ofNat 4 count := rfl
@[simp] theorem decodeResults_q (b : Block) (parity : Parity) (p count : Nat) (s : State) : (decodeResults b parity p count s).q = parity := rfl
@[simp] theorem decodeResults_st (b : Block) (parity : Parity) (p count : Nat) (s : State) : (decodeResults b parity p count s).st = 4#3 := rfl
@[simp] theorem decodeResults_pending (b : Block) (parity : Parity) (p count : Nat) (s : State) : (decodeResults b parity p count s).pending = s.pending := rfl
@[simp] theorem decodeResults_answers (b : Block) (parity : Parity) (p count : Nat) (s : State) : (decodeResults b parity p count s).answers = s.answers := rfl

/-! ### resetUnit -/

@[simp] theorem resetUnit_d (s : State) : (resetUnit s).d = 0#64 := rfl
@[simp] theorem resetUnit_w (s : State) : (resetUnit s).w = ⟨0#11, 0#11, 0#11, 0#11, 0#11, 0#11⟩ := rfl
@[simp] theorem resetUnit_pad (s : State) : (resetUnit s).pad = 0#3 := rfl
@[simp] theorem resetUnit_cnt (s : State) : (resetUnit s).cnt = 8#4 := rfl
@[simp] theorem resetUnit_q (s : State) : (resetUnit s).q = 0#2 := rfl
@[simp] theorem resetUnit_st (s : State) : (resetUnit s).st = 0#3 := rfl
@[simp] theorem resetUnit_pending (s : State) : (resetUnit s).pending = s.pending := rfl
@[simp] theorem resetUnit_answers (s : State) : (resetUnit s).answers = s.answers := rfl

/-! ### answerRead -/

@[simp] theorem answerRead_d (v : PortData) (s : State) : (answerRead v s).d = s.d := rfl
@[simp] theorem answerRead_w (v : PortData) (s : State) : (answerRead v s).w = s.w := rfl
@[simp] theorem answerRead_pad (v : PortData) (s : State) : (answerRead v s).pad = s.pad := rfl
@[simp] theorem answerRead_cnt (v : PortData) (s : State) : (answerRead v s).cnt = s.cnt := rfl
@[simp] theorem answerRead_q (v : PortData) (s : State) : (answerRead v s).q = s.q := rfl
@[simp] theorem answerRead_st (v : PortData) (s : State) : (answerRead v s).st = s.st := rfl
@[simp] theorem answerRead_pending (v : PortData) (s : State) : (answerRead v s).pending = s.pending := rfl
@[simp] theorem answerRead_answers (v : PortData) (s : State) : (answerRead v s).answers = s.answers ++ [v] := rfl

/-! ### storeReg -/

@[simp] theorem storeReg_pad (r : Reg) (data : PortData) (s : State) : (storeReg r data s).pad = s.pad := by cases r <;> rfl
@[simp] theorem storeReg_cnt (r : Reg) (data : PortData) (s : State) : (storeReg r data s).cnt = s.cnt := by cases r <;> rfl
@[simp] theorem storeReg_q (r : Reg) (data : PortData) (s : State) : (storeReg r data s).q = s.q := by cases r <;> rfl
@[simp] theorem storeReg_st (r : Reg) (data : PortData) (s : State) : (storeReg r data s).st = s.st := by cases r <;> rfl
@[simp] theorem storeReg_pending (r : Reg) (data : PortData) (s : State) : (storeReg r data s).pending = s.pending := by cases r <;> rfl
@[simp] theorem storeReg_answers (r : Reg) (data : PortData) (s : State) : (storeReg r data s).answers = s.answers := by cases r <;> rfl
@[simp] theorem storeReg_d_d (data : PortData) (s : State) : (storeReg .d data s).d = data := rfl
@[simp] theorem storeReg_d_w (data : PortData) (s : State) : (storeReg .d data s).w = s.w := rfl
@[simp] theorem storeReg_w_d (k : Fin 6) (data : PortData) (s : State) : (storeReg (.w k) data s).d = s.d := rfl
@[simp] theorem storeReg_w_w (k : Fin 6) (data : PortData) (s : State) :
    (storeReg (.w k) data s).w = s.w.set k (data.extractLsb' 0 11) := rfl

/-! ### presentCommand -/

@[simp] theorem presentCommand_d (data : PortData) (s : State) : (presentCommand data s).d = s.d := rfl
@[simp] theorem presentCommand_w (data : PortData) (s : State) : (presentCommand data s).w = s.w := rfl
@[simp] theorem presentCommand_pad (data : PortData) (s : State) : (presentCommand data s).pad = s.pad := rfl
@[simp] theorem presentCommand_cnt (data : PortData) (s : State) : (presentCommand data s).cnt = s.cnt := rfl
@[simp] theorem presentCommand_q (data : PortData) (s : State) : (presentCommand data s).q = s.q := rfl
@[simp] theorem presentCommand_st (data : PortData) (s : State) : (presentCommand data s).st = s.st := rfl
@[simp] theorem presentCommand_pending (data : PortData) (s : State) : (presentCommand data s).pending = .write cmdIndex data :: s.pending := rfl
@[simp] theorem presentCommand_answers (data : PortData) (s : State) : (presentCommand data s).answers = s.answers := rfl

end Sys2Proof.Machine
end

