-- ==== Sys2Proof/Laws/Ops.lean ====
section
/-! SUPPORT. What each command and each shared operation can do, said once (10_state.md R23-R25; the command rules). -/

namespace Sys2Proof.Machine

theorem encpLegal_iff (n : Nat) : encpLegal n = true ↔ 1 ≤ n ∧ n ≤ 8 := by simp [encpLegal]

theorem decpLegal_iff (p : Nat) : decpLegal p = true ↔ p ≤ 7 := by simp [decpLegal]

theorem execPar_cases (s : State) : execPar s = .next { s with q := par2 s.d, st := 4#3 } := rfl

theorem execEnc_cases (s : State) :
    execEnc s = .next { s with w := slice6 s.d, q := par2 s.d, pad := 0#3, cnt := 8#4, st := 4#3 } := rfl

theorem execEncp_cases (n : Nat) (s : State) :
    (encpLegal n = false ∧ execEncp n s = .next { s with st := 2#3 }) ∨
    (encpLegal n = true ∧ execEncp n s = .next
      { s with d := zextBlock s.d n, w := slice6 (zextBlock s.d n), q := par2 (zextBlock s.d n), pad := .ofNat 3 (8 - n),
               cnt := .ofNat 4 n, st := 4#3 }) := by
  cases h : encpLegal n
  · exact .inl ⟨rfl, by rw [execEncp, if_pos h]; rfl⟩
  · exact .inr ⟨rfl, by rw [execEncp, if_neg (by simp [h])]; rfl⟩

theorem execDec_cases (s : State) :
    (¬ checksOut s.w ∧ execDec s = .next { s with st := 1#3 }) ∨
    (checksOut s.w ∧ execDec s = .next
      { s with d := s.w.value, q := par2 s.w.value, pad := 0#3, cnt := 8#4, st := 4#3 }) := by
  rw [← embedded_eq_computed_iff]
  by_cases h : (merge6 s.w).embedded = (merge6 s.w).computed
  · exact .inr ⟨h, by simp only [execDec, ne_eq, h, not_true_eq_false, if_false]; rfl⟩
  · exact .inl ⟨h, by simp only [execDec, ne_eq, h, not_false_eq_true, if_true]; rfl⟩

theorem execDecp_cases (p : Nat) (s : State) :
    (decpLegal p = false ∧ execDecp p s = .next { s with st := 2#3 }) ∨
    (decpLegal p = true ∧ ¬ checksOut s.w ∧ execDecp p s = .next { s with st := 1#3 }) ∨
    (decpLegal p = true ∧ checksOut s.w ∧ execDecp p s = .next
      { s with d := s.w.value >>> (8 * p), q := par2 s.w.value, pad := .ofNat 3 p, cnt := .ofNat 4 (8 - p),
               st := 4#3 }) := by
  rw [← embedded_eq_computed_iff]
  cases hp : decpLegal p
  · exact .inl ⟨rfl, by rw [execDecp, if_pos hp]; rfl⟩
  · refine .inr ?_
    by_cases h : (merge6 s.w).embedded = (merge6 s.w).computed
    · exact .inr ⟨rfl, h, by simp only [execDecp, hp, ne_eq, h, not_true_eq_false, if_false]; rfl⟩
    · exact .inl ⟨rfl, h, by simp only [execDecp, hp, ne_eq, h, not_false_eq_true, if_true]; rfl⟩

theorem execEncp_accepted {n : Nat} (h1 : 1 ≤ n) (h8 : n ≤ 8) (s : State) :
    execEncp n s = .next
      { s with d := zextBlock s.d n, w := slice6 (zextBlock s.d n), q := par2 (zextBlock s.d n), pad := .ofNat 3 (8 - n),
               cnt := .ofNat 4 n, st := 4#3 } :=
  ((execEncp_cases n s).resolve_left fun g => by simp [(encpLegal_iff n).mpr ⟨h1, h8⟩] at g).2

theorem execDec_verified {s : State} (h : checksOut s.w) :
    execDec s = .next { s with d := s.w.value, q := par2 s.w.value, pad := 0#3, cnt := 8#4, st := 4#3 } :=
  ((execDec_cases s).resolve_left fun g => g.1 h).2

theorem execDecp_verified {p : Nat} (hp : p ≤ 7) {s : State} (h : checksOut s.w) :
    execDecp p s = .next
      { s with d := s.w.value >>> (8 * p), q := par2 s.w.value, pad := .ofNat 3 p, cnt := .ofNat 4 (8 - p),
               st := 4#3 } := by
  rcases execDecp_cases p s with ⟨g, _⟩ | ⟨_, g, _⟩ | ⟨_, _, g⟩
  · simp [(decpLegal_iff p).mpr hp] at g
  · exact absurd h g
  · exact g

end Sys2Proof.Machine
end

