-- ==== Sys2Proof/Laws/Port.lean ====
section
/-! SUPPORT. What a command word, an access and a step can do, said once (20_memory.md R32-R39; 30_encoding.md R50). -/

namespace Sys2Proof.Machine

/-- A command goes on, leaves the host's side alone and acts the same whatever the host is about to do. -/
theorem exec_next (i : Instr) (s : State) :
    ∃ t, exec i s = .next t ∧ t.pending = s.pending ∧ t.answers = s.answers ∧
      ∀ rest, exec i { s with pending := rest } = .next { t with pending := rest } := by
  cases i with
  | par => exact ⟨_, execPar_cases s, rfl, rfl, fun _ => rfl⟩
  | enc => exact ⟨_, execEnc_cases s, rfl, rfl, fun _ => rfl⟩
  | encp n =>
    rcases execEncp_cases n s with ⟨hn, h⟩ | ⟨hn, h⟩
    · exact ⟨_, h, rfl, rfl, fun _ => by simp only [exec, execEncp, hn, if_true]; rfl⟩
    · exact ⟨_, h, rfl, rfl, fun _ => by simp only [exec, execEncp, hn]; rfl⟩
  | dec =>
    rcases execDec_cases s with ⟨hw, h⟩ | ⟨hw, h⟩ <;> refine ⟨_, h, rfl, rfl, fun rest => ?_⟩
    · exact ((execDec_cases { s with pending := rest }).resolve_right fun g => hw g.1).2
    · exact ((execDec_cases { s with pending := rest }).resolve_left fun g => g.1 hw).2
  | decp p =>
    rcases execDecp_cases p s with ⟨hp, h⟩ | ⟨hp, hw, h⟩ | ⟨hp, hw, h⟩ <;> refine ⟨_, h, rfl, rfl, fun rest => ?_⟩
    · rcases execDecp_cases p { s with pending := rest } with ⟨_, g⟩ | ⟨gp, _⟩ | ⟨gp, _⟩
      · exact g
      · simp [hp] at gp
      · simp [hp] at gp
    · rcases execDecp_cases p { s with pending := rest } with ⟨gp, _⟩ | ⟨_, _, g⟩ | ⟨_, gw, _⟩
      · simp [hp] at gp
      · exact g
      · exact absurd gw hw
    · rcases execDecp_cases p { s with pending := rest } with ⟨gp, _⟩ | ⟨_, gw, _⟩ | ⟨_, _, g⟩
      · simp [hp] at gp
      · exact absurd hw gw
      · exact g

theorem performCommand_ok {c : CommandWord} {i : Instr} (h : decode c = .ok i) (s : State) :
    performCommand c s = exec i s := by
  simp only [performCommand, h]

theorem performCommand_error {c : CommandWord} {why : Reserved} (h : decode c = .error why) (s : State) :
    performCommand c s = .next { s with st := 3#3 } := by
  simp only [performCommand, h]; rfl

/-- A command word either runs its command or raises IllegalCommand. -/
theorem performCommand_cases (c : CommandWord) (s : State) :
    (∃ i, decode c = .ok i ∧ performCommand c s = exec i s) ∨
    ((∃ why, decode c = .error why) ∧ performCommand c s = .next { s with st := 3#3 }) := by
  cases h : decode c with
  | ok i => exact .inl ⟨i, rfl, performCommand_ok h s⟩
  | error why => exact .inr ⟨⟨why, rfl⟩, performCommand_error h s⟩

/-- A command word goes on, leaves the host's side alone and acts the same whatever the host is about to do. -/
theorem performCommand_next (c : CommandWord) (s : State) :
    ∃ t, performCommand c s = .next t ∧ t.pending = s.pending ∧ t.answers = s.answers ∧
      ∀ rest, performCommand c { s with pending := rest } = .next { t with pending := rest } := by
  cases h : decode c with
  | ok i => simpa only [performCommand_ok h] using exec_next i s
  | error why => exact ⟨_, performCommand_error h s, rfl, rfl, fun _ => performCommand_error h _⟩

theorem regAt_eq_cmd_iff (idx : Fin 16) : regAt idx = .cmd ↔ idx = 11 := by
  revert idx; decide

theorem regWrite_cmd (data : PortData) (s : State) : regWrite 11 data s = performCommand (commandWord data) s := rfl

theorem regWrite_store {idx : Fin 16} (h : idx ≠ 11) (data : PortData) (s : State) :
    regWrite idx data s = .next (storeReg (regAt idx) data s) := by
  rw [regWrite, if_neg (mt (regAt_eq_cmd_iff idx).mp h)]

/-- Every access goes on, leaves the accesses to come alone and does not depend on them. -/
theorem perform_next (a : HostAction) (s : State) :
    ∃ t, perform a s = .next t ∧ t.pending = s.pending ∧
      ∀ rest, perform a { s with pending := rest } = .next { t with pending := rest } := by
  cases a with
  | read idx =>
    refine ⟨_, rfl, rfl, fun rest => ?_⟩
    simp only [perform, regRead]
    cases regAt idx <;> rfl
  | reset => exact ⟨_, rfl, rfl, fun _ => rfl⟩
  | write idx data =>
    by_cases h : idx = 11
    · subst h
      obtain ⟨t, ht, hp, _, hr⟩ := performCommand_next (commandWord data) s
      exact ⟨t, ht, hp, hr⟩
    · simp only [perform, regWrite_store h]
      exact ⟨_, rfl, by simp, fun rest => by cases regAt idx <;> rfl⟩

theorem step_nil {s : State} (h : s.pending = []) : step s = .next s := by
  simp [step, nextAction, h]

theorem step_cons {s : State} {a : HostAction} {rest : List HostAction} (h : s.pending = a :: rest) :
    step s = perform a { s with pending := rest } := by
  simp [step, nextAction, h]

theorem commandWord_encode (i : Instr) : commandWord ((encode i).setWidth 64) = encode i := by
  apply BitVec.eq_of_getLsbD_eq
  intro j hj
  have : j < 64 := by omega
  simp [commandWord, hj, this]

/-- Issuing a command whose word decodes back to it performs the command. -/
theorem perform_issue {i : Instr} (h : decode (encode i) = .ok i) (s : State) : perform (issue i) s = exec i s := by
  show performCommand (commandWord ((encode i).setWidth 64)) s = _
  rw [commandWord_encode, performCommand_ok h]

theorem performAll_cons {a : HostAction} {s t : State} (h : perform a s = .next t) (rest : List HostAction) :
    performAll (a :: rest) s = performAll rest t := by
  rw [performAll, h]

/-- A run whose first step goes on is the rest of the run from where it leads. -/
theorem run_succ {s t : State} (h : step s = .next t) (k : Nat) :
    Sys2Proof.core.run (k + 1) s = Sys2Proof.core.run k t := by
  have hs : Sys2Proof.core.step s = .next t := h
  simp only [Host.Core.run, hs]

end Sys2Proof.Machine
end

