-- ==== Sys2Proof/Laws/HostDriver.lean ====
section
/-! SUPPORT. What one encode or decode transaction answers, how bytes lie in the lanes, and what the dictionary lookup
of a lawful dictionary's own word is (44_host_driver.md R115-R119, R124, R126). -/

namespace Sys2Proof.Machine

theorem transact_of_performAll {actions : List HostAction} {s t : State}
    (h : performAll actions { s with answers := [] } = .next t) : transact actions s = .ok (t.answers, t) := by
  simp only [transact, h]

/-- The bytes below lane `k` are untouched by packing from lane `k` on. -/
theorem lane_packLanes_below (bytes : List Byte) :
    ∀ k j, k + bytes.length ≤ 8 → j < k → lane (packLanes k bytes) j = 0#8 := by
  induction bytes with
  | nil => intro k j _ _; simp [packLanes, lane]
  | cons b bytes ih =>
    intro k j hk hj
    simp only [List.length_cons] at hk
    have above := ih (k + 1) j (by omega) (by omega)
    apply BitVec.eq_of_getLsbD_eq
    intro n hn
    have bit := congrArg (fun x => x.getLsbD n) above
    simp [lane, hn] at bit
    simp [lane, packLanes, hn, bit, BitVec.getLsbD_setWidth]
    intro _ _ _
    exact BitVec.getLsbD_of_ge b _ (by omega)

/-- Packed bytes stand in their lanes, in order (20_memory.md R36, R37 (a)). -/
theorem lane_packLanes (bytes : List Byte) :
    ∀ i j, i + bytes.length ≤ 8 → j < 8 → i ≤ j → lane (packLanes i bytes) j = (bytes[j - i]?).getD 0#8 := by
  induction bytes with
  | nil => intro i j _ _ _; simp [packLanes, lane]
  | cons b bytes ih =>
    intro i j hi hj h
    simp only [List.length_cons] at hi
    have split : lane (packLanes i (b :: bytes)) j =
        lane (b.setWidth 64 <<< (56 - 8 * i)) j ||| lane (packLanes (i + 1) bytes) j := by
      apply BitVec.eq_of_getLsbD_eq
      intro n hn
      simp [lane, packLanes, hn]
    rw [split]
    by_cases e : j = i
    · subst e
      rw [lane_packLanes_below bytes (j + 1) j (by omega) (by omega)]
      apply BitVec.eq_of_getLsbD_eq
      intro n hn
      have : 56 - 8 * j + n < 64 := by omega
      simp [lane, hn, this]
    · have gone : lane (b.setWidth 64 <<< (56 - 8 * i)) j = 0#8 := by
        apply BitVec.eq_of_getLsbD_eq
        intro n hn
        have : 56 - 8 * j + n < 56 - 8 * i := by omega
        simp [lane, hn, this]
      rw [ih (i + 1) j (by omega) hj (by omega), gone, show j - i = (j - (i + 1)) + 1 by omega]
      simp

/-- An encode transaction of `n` bytes answers success, the six codes of the zero-extended block and the padding. -/
theorem transact_encode (block : Block) {n : Nat} (h1 : 1 ≤ n) (h8 : n ≤ 8) (s : State) :
    ∃ t, transact (encodeTransaction block n) s =
      .ok ([4#64, (slice6 (zextBlock block n)).w0.setWidth 64, (slice6 (zextBlock block n)).w1.setWidth 64,
            (slice6 (zextBlock block n)).w2.setWidth 64, (slice6 (zextBlock block n)).w3.setWidth 64,
            (slice6 (zextBlock block n)).w4.setWidth 64, (slice6 (zextBlock block n)).w5.setWidth 64,
            (BitVec.ofNat 3 (8 - n)).setWidth 64], t) := by
  have full : ∀ v : Block, zextBlock v 8 = v := fun v => BitVec.eq_of_getLsbD_eq fun i _ => by
    simp [zextBlock_getLsbD]
  let command : Instr := if n = Config.blockBytes then .enc else .encp n
  have hdec : decode (encode command) = .ok command := by
    simp only [command]
    interval_cases n <;> rfl
  have hexec : ∀ u : State, exec command u = .next
      { u with d := zextBlock u.d n, w := slice6 (zextBlock u.d n), q := par2 (zextBlock u.d n), pad := .ofNat 3 (8 - n),
               cnt := .ofNat 4 n, st := 4#3 } := by
    intro u
    by_cases h : n = 8
    · subst h
      rw [full]
      exact execEnc_cases u
    · have : command = .encp n := if_neg h
      rw [this]
      exact execEncp_accepted h1 h8 u
  have run : ∃ t, performAll (encodeTransaction block n) { s with answers := [] } = .next t ∧ t.answers =
      [4#64, (slice6 (zextBlock block n)).w0.setWidth 64, (slice6 (zextBlock block n)).w1.setWidth 64,
       (slice6 (zextBlock block n)).w2.setWidth 64, (slice6 (zextBlock block n)).w3.setWidth 64,
       (slice6 (zextBlock block n)).w4.setWidth 64, (slice6 (zextBlock block n)).w5.setWidth 64,
       (BitVec.ofNat 3 (8 - n)).setWidth 64] :=
    ⟨_, (performAll_cons (t := { s with answers := [], d := block }) rfl _).trans
      ((performAll_cons ((perform_issue hdec _).trans (hexec _)) _).trans rfl), rfl⟩
  obtain ⟨t, ht, ha⟩ := run
  exact ⟨t, by rw [transact_of_performAll ht, ha]⟩

/-- The six writes of a decode transaction put the codes into W; its command runs on them and its reads follow
(20_memory.md R33, R39). -/
theorem performAll_decode (codes : Sentence) {command : Instr} (h : decode (encode command) = .ok command) {s t : State}
    (hx : exec command { s with w := codes } = .next t) :
    performAll (decodeTransaction codes command) s = performAll [.read 10, .read 0, .read 8] t := by
  have slot : ∀ c : Code, (c.setWidth 64 : PortData).extractLsb' 0 11 = c := fun c =>
    BitVec.eq_of_getLsbD_eq fun j hj => by
      have : j < 64 := by omega
      simp [hj, this]
  have stored : performAll (decodeTransaction codes command) s =
      performAll [issue command, .read 10, .read 0, .read 8] { s with w :=
        ⟨(codes.w0.setWidth 64 : PortData).extractLsb' 0 11, (codes.w1.setWidth 64 : PortData).extractLsb' 0 11,
         (codes.w2.setWidth 64 : PortData).extractLsb' 0 11, (codes.w3.setWidth 64 : PortData).extractLsb' 0 11,
         (codes.w4.setWidth 64 : PortData).extractLsb' 0 11, (codes.w5.setWidth 64 : PortData).extractLsb' 0 11⟩ } := rfl
  rw [stored]
  simp only [slot]
  exact performAll_cons ((perform_issue h _).trans hx) _

/-- A decode transaction, plain (`p = 0`, DEC) or with a padding amount, of a Sentence that verifies answers success,
the shifted value and the byte count (44_host_driver.md R126). -/
theorem transact_decode_verified {codes : Sentence} (hc : checksOut codes) {p : Nat} (hp : p ≤ 7) (s : State) :
    (∃ t, transact (decodeTransaction codes (.decp p)) s =
      .ok ([4#64, codes.value >>> (8 * p), (BitVec.ofNat 4 (8 - p)).setWidth 64], t)) ∧
    ∃ t, transact (decodeTransaction codes .dec) s = .ok ([4#64, codes.value, 8#64], t) := by
  have hd : decode (encode (.decp p)) = .ok (.decp p) := by interval_cases p <;> rfl
  exact ⟨⟨_, transact_of_performAll (performAll_decode codes hd (execDecp_verified hp hc))⟩,
    ⟨_, transact_of_performAll (performAll_decode codes (command := .dec) rfl (execDec_verified hc))⟩⟩

/-- A decode transaction of a Sentence that does not verify reads Integrity in ST (44_host_driver.md R123, R126). -/
theorem transact_decode_rejected {codes : Sentence} (hc : ¬ checksOut codes) {command : Instr}
    (h : command = .dec ∨ ∃ p, p ≤ 7 ∧ command = .decp p) (s : State) :
    ∃ d cnt t, transact (decodeTransaction codes command) s = .ok ([1#64, d, cnt], t) := by
  have hd : decode (encode command) = .ok command := by
    rcases h with rfl | ⟨p, hp, rfl⟩
    · rfl
    · interval_cases p <;> rfl
  have hexec : ∀ u : State, u.w = codes → exec command u = .next { u with st := 1#3 } := by
    rintro u rfl
    rcases h with rfl | ⟨p, hp, rfl⟩
    · exact ((execDec_cases u).resolve_right fun g => hc g.1).2
    · exact (((execDecp_cases p u).resolve_left fun g => by simp [(decpLegal_iff p).mpr hp] at g).resolve_right
        fun g => hc g.2.1).2.2
  exact ⟨_, _, _, transact_of_performAll (performAll_decode codes hd (hexec _ rfl))⟩

/-- A marker is at most 7 (44_host_driver.md R119). -/
theorem stripMarker_le (token : Token) : (stripMarker token).2 ≤ 7 := by
  unfold stripMarker
  split
  · simp
  · split
    · rename_i h; simp only; omega
    · simp

/-- Six tokens whose codes do not verify are an Integrity error, marked or not (44_host_driver.md R119, R123). -/
theorem decodeSentence_rejected {dict : Dictionary} {marked : Bool} {t0 t1 t2 t3 t4 t5 : Token} {codes : Sentence}
    (h : lookupSix dict t0 t1 t2 t3 t4 (if marked then (stripMarker t5).1 else t5) = .ok codes)
    (hc : ¬ checksOut codes) (s : State) :
    decodeSentence dict [t0, t1, t2, t3, t4, t5] marked s = .error .integrity := by
  cases marked with
  | false =>
    obtain ⟨d, cnt, t, ht⟩ := transact_decode_rejected hc (.inl rfl) s
    simp only [Bool.false_eq_true, if_false] at h
    simp only [decodeSentence, Bool.false_eq_true, if_false, h, ht, if_true]
  | true =>
    obtain ⟨d, cnt, t, ht⟩ := transact_decode_rejected hc (.inr ⟨_, stripMarker_le t5, rfl⟩) s
    simp only [if_true] at h
    simp only [decodeSentence, if_true, h, ht]

/-- Cutting more often than there are elements changes nothing. -/
theorem groupsFuel_of_length_le {α : Type} {k : Nat} (hk : 0 < k) :
    ∀ (fuel : Nat) (xs : List α), xs.length ≤ fuel → groupsFuel k fuel xs = groupsOf k xs := by
  have step : ∀ (n : Nat) (xs : List α), xs.length ≤ n → ∀ f g, xs.length ≤ f → xs.length ≤ g →
      groupsFuel k f xs = groupsFuel k g xs := by
    intro n
    induction n with
    | zero =>
      intro xs hn f g _ _
      obtain rfl := List.length_eq_zero_iff.mp (Nat.le_zero.mp hn)
      cases f <;> cases g <;> rfl
    | succ n ih =>
      intro xs hn f g hf hg
      cases xs with
      | nil => cases f <;> cases g <;> rfl
      | cons x xs =>
        simp only [List.length_cons] at hn hf hg
        obtain ⟨f, rfl⟩ := Nat.exists_eq_add_of_le' (Nat.le_trans (Nat.le_add_left 1 _) hf)
        obtain ⟨g, rfl⟩ := Nat.exists_eq_add_of_le' (Nat.le_trans (Nat.le_add_left 1 _) hg)
        have hl : ((x :: xs).drop k).length ≤ xs.length := by rw [List.length_drop, List.length_cons]; omega
        rw [groupsFuel, groupsFuel, ih _ (by omega) f g (by omega) (by omega)]
  exact fun fuel xs h => step xs.length xs le_rfl _ _ h le_rfl

/-- Whole groups are cut off one by one (44_host_driver.md R121, R123). -/
theorem groupsOf_append {α : Type} {k : Nat} (hk : 0 < k) {group : List α} (hg : group.length = k) (rest : List α) :
    groupsOf k (group ++ rest) = group :: groupsOf k rest := by
  cases group with
  | nil => simp at hg; omega
  | cons x xs =>
    have hl : (x :: xs ++ rest).length = (xs ++ rest).length + 1 := by simp
    have cut : groupsOf k (x :: xs ++ rest) =
        (x :: xs ++ rest).take k :: groupsFuel k (xs ++ rest).length ((x :: xs ++ rest).drop k) := by
      rw [groupsOf, hl]; rfl
    rw [cut, ← hg, List.take_left, List.drop_left, hg,
      groupsFuel_of_length_le hk _ rest (by rw [List.length_append]; omega)]

/-- A lawful dictionary's words are in upper case already. -/
theorem Dictionary.Lawful.map_toUpper {dict : Dictionary} (hd : dict.Lawful) (c : Code) :
    (dict.wordOf c).map Char.toUpper = dict.wordOf c := by
  have fixed : ∀ ch ∈ dict.wordOf c, Char.toUpper ch = ch := by
    intro ch h
    have kind := hd.alphanumeric c ch h
    unfold Char.toUpper
    split
    · rename_i lower
      exfalso
      simp [Char.isUpper, Char.isDigit] at kind
      simp only [UInt32.le_iff_toNat_le] at lower kind
      have base : 'a'.val.toNat = 97 := rfl
      have low := lower.1
      rcases kind with g | g
      · have := g.2; simp at *; omega
      · have := g.2; simp at *; omega
    · rfl
  conv_rhs => rw [← List.map_id (dict.wordOf c)]
  exact List.map_congr_left fixed

/-- The code of a lawful dictionary's word is found. -/
theorem Dictionary.Lawful.codeOf_wordOf {dict : Dictionary} (hd : dict.Lawful) (c : Code) :
    dict.codeOf (dict.wordOf c) = some c := by
  unfold Dictionary.codeOf
  have hc := c.isLt
  cases hf : (List.range 2048).find? (fun k => dict.wordOf (BitVec.ofNat 11 k) == dict.wordOf c) with
  | none =>
    rw [List.find?_eq_none] at hf
    have := hf c.toNat (by simpa using hc)
    simp at this
  | some k =>
    have := List.find?_some hf
    simp only [beq_iff_eq] at this
    rw [Option.map_some, hd.injective _ _ this]

end Sys2Proof.Machine
end

