-- ==== Sys2Proof/Laws/PerInstr.lean ====
section
/-! SUPPORT. The per-instruction family EncodesItsRow: a well-formed command's word selects the row of the opcode map
that bears its mnemonic (30_encoding.md R52). -/

namespace Sys2Proof.Laws.EncodesItsRow

/-- The command's word selects a row of the opcode map with the command's mnemonic. -/
def Statement (i : Instr) : Prop :=
  i.wellFormed = true → ∃ r ∈ opcodeMap, r.mnemonic = i.mnemonic ∧ r.selectedBy (encode i) = true

theorem par : Statement .par := fun _ => ⟨⟨"PAR", 0x10#8, 0xFF#8⟩, by simp [opcodeMap], rfl, by decide⟩

theorem enc : Statement .enc := fun _ => ⟨⟨"ENC", 0x20#8, 0xFF#8⟩, by simp [opcodeMap], rfl, by decide⟩

theorem dec : Statement .dec := fun _ => ⟨⟨"DEC", 0x40#8, 0xFF#8⟩, by simp [opcodeMap], rfl, by decide⟩

/-- The high nibble of a format I word does not depend on its immediate. -/
theorem immediate_masked (op : BitVec 4) (n : Nat) : (op ++ BitVec.ofNat 4 n) &&& 0xF0#8 = op ++ 0#4 := by
  generalize BitVec.ofNat 4 n = x
  revert op x
  decide

theorem encp (n : Nat) : Statement (.encp n) := fun _ =>
  ⟨⟨"ENCP", 0x30#8, 0xF0#8⟩, by simp [opcodeMap], rfl, by
    simp only [OpcodeRow.selectedBy, encode, immediate_masked]; decide⟩

theorem decp (p : Nat) : Statement (.decp p) := fun _ =>
  ⟨⟨"DECP", 0x50#8, 0xF0#8⟩, by simp [opcodeMap], rfl, by
    simp only [OpcodeRow.selectedBy, encode, immediate_masked]; decide⟩

end Sys2Proof.Laws.EncodesItsRow
end

