-- ==== Sys2Proof/Tests/Slice0.lean ====
section
/-! SUPPORT. The model's own tests: words decoded by hand from 30_encoding.md R52, values of 95_test_vectors.md, and
for every statement with hypotheses a named theorem that concrete states and operands meet them. -/

namespace Sys2Proof.Tests

open Sys2Proof.Machine

/-- The reset state with D and W as given. -/
def loaded (d : Block) (w : Sentence) : State := { State.reset with d := d, w := w }

/-- The Sentence of the source's second vector (95_test_vectors.md V2). -/
def rome : Sentence := ⟨0x68C, 0x150, 0x431, 0x6BB, 0x585, 0x547⟩

/-- The same with its parity bits altered (95_test_vectors.md T-DEC row 4). -/
def altered : Sentence := { rome with w5 := 0x546 }

/-- The reset state with the given accesses to come. -/
def queued (acts : List HostAction) : State := { State.reset with pending := acts }

/-! ## Well-formedness and decoding -/

theorem test_wellFormed_refuses_encp_16 : (Instr.encp 16).wellFormed = false := by decide
theorem test_wellFormed_refuses_decp_16 : (Instr.decp 16).wellFormed = false := by decide
theorem test_wellFormed_accepts_encodable :
    Instr.par.wellFormed && Instr.enc.wellFormed && Instr.dec.wellFormed && (Instr.encp 0).wellFormed &&
      (Instr.decp 15).wellFormed = true := by decide

theorem test_decode_par : decode 0b00010000#8 = .ok .par := by decide
theorem test_decode_enc : decode 0b00100000#8 = .ok .enc := by decide
theorem test_decode_encp : decode 0b00111000#8 = .ok (.encp 8) := by decide
theorem test_decode_dec : decode 0b01000000#8 = .ok .dec := by decide
theorem test_decode_decp : decode 0b01010111#8 = .ok (.decp 7) := by decide
theorem test_decode_zero_is_reserved : decode 0x00#8 = .error (.unassignedOp 0) := by decide
theorem test_decode_enc_with_argument : decode 0x21#8 = .error (.mustBeZero 2 1) := by decide
theorem test_identity_names_the_opcode_map : opcodeMap.map (·.mnemonic) = Config.identity.commandSet := by decide
theorem test_encode_words :
    [Instr.par, .enc, .encp 6, .dec, .decp 2].map encode = [0x10#8, 0x20#8, 0x36#8, 0x40#8, 0x52#8] := by decide
theorem test_decodeTableWord_encp : decodeTableWord 8 0x3F = some (.encp 15) := by decide
theorem test_decodeTableWord_reserved : decodeTableWord 8 0x60 = none := by decide

/-! ## Commands (95_test_vectors.md sections 2.1 to 2.7) -/

theorem test_par_dead_beef :
    nextOf (exec .par (loaded 0xDEADBEEFCAFEF00D rome)) =
      some { loaded 0xDEADBEEFCAFEF00D rome with q := 2, st := 4 } := by decide
theorem test_enc_rome :
    nextOf (exec .enc (loaded 0xD1854218EBBB0B51 altered)) =
      some { loaded 0xD1854218EBBB0B51 rome with q := 3, st := 4 } := by decide
theorem test_enc_counting :
    (nextOf (exec .enc (loaded 0x0123456789ABCDEF rome))).map (·.w) =
      some ⟨0x009, 0x0D1, 0x2CF, 0x09A, 0x5E6, 0x7BC⟩ := by decide
theorem test_encp_masks_the_tail :
    nextOf (exec (.encp 6) (loaded 0x000000666F6FDEAD rome)) =
      some { loaded 0x000000666F6F0000 ⟨0, 0, 0x0CC, 0x6F6, 0x780, 0⟩ with pad := 2, cnt := 6, st := 4 } := by decide
theorem test_encp_nine_is_out_of_range :
    nextOf (exec (.encp 9) (loaded 0x0123456789ABCDEF rome)) =
      some { loaded 0x0123456789ABCDEF rome with st := 2 } := by decide
theorem test_dec_swapped_slots_escape :
    nextOf (exec .dec (loaded 0xA5A5 ⟨0x150, 0x68C, 0x431, 0x6BB, 0x585, 0x547⟩)) =
      some { loaded 0x2A1A3218EBBB0B51 ⟨0x150, 0x68C, 0x431, 0x6BB, 0x585, 0x547⟩ with q := 3, st := 4 } := by decide
theorem test_dec_altered_word :
    nextOf (exec .dec (loaded 0xA5A5 altered)) = some { loaded 0xA5A5 altered with st := 1 } := by decide
theorem test_decp_discards_unexamined :
    nextOf (exec (.decp 3) (loaded 0xA5A5 rome)) =
      some { loaded 0x000000D1854218EB rome with q := 3, pad := 3, cnt := 5, st := 4 } := by decide
theorem test_decp_range_before_integrity :
    nextOf (exec (.decp 8) (loaded 0xA5A5 altered)) = some { loaded 0xA5A5 altered with st := 2 } := by decide

/-! ## The port, the step and the host -/

theorem test_write_keeps_eleven_bits :
    nextOf (step (queued [.write 1 0xFFFFFFFFFFFFFE8C])) = some (loaded 0 ⟨0x68C, 0, 0, 0, 0, 0⟩) := by decide
theorem test_write_to_cnt_is_ignored : nextOf (step (queued [.write 8 0])) = some State.reset := by decide
theorem test_read_of_cnt : nextOf (step (queued [.read 8])) = some { State.reset with answers := [8] } := by decide
theorem test_cmd_high_bits_are_ignored :
    nextOf (step (queued [.write 11 0xFFFFFFFFFFFFFF20])) = some { State.reset with st := 4 } := by decide
theorem test_reserved_word : nextOf (step (queued [.write 11 0])) = some { State.reset with st := 3 } := by decide
theorem test_fetch_word_runs_at_reset :
    nextOf (step (State.reset.withFetchWord 8 0x38)) = some { State.reset with st := 4 } := by decide

/-- A stand-in dictionary: the ten known words, and three letters from W.. to Z.. for every other code. -/
def standIn : Dictionary where
  wordOf c :=
    match knownWords.find? (·.1 == c) with
    | some e => e.2
    | none => [Char.ofNat (0x57 + c.toNat / 676), Char.ofNat (0x41 + c.toNat / 26 % 26), Char.ofNat (0x41 + c.toNat % 26)]

/-- The code of a stand-in word: no known word begins with a letter from W on. -/
def standInCode (word : Token) : Code :=
  let listed := ((knownWords.find? (·.2 == word)).map (·.1)).getD 0
  match word with
  | [a, b, c] =>
    if Nat.ble 0x57 a.toNat then BitVec.ofNat 11 ((a.toNat - 0x57) * 676 + (b.toNat - 0x41) * 26 + (c.toNat - 0x41))
    else listed
  | _ => listed

/-- A check of every code, row by row of 64. -/
theorem forall_code {P : Code → Prop} (h : ∀ hi : Fin 32, ∀ lo : Fin 64, P (BitVec.ofNat 11 (64 * hi.val + lo.val)))
    (c : Code) : P c := by
  have := h ⟨c.toNat / 64, by omega⟩ ⟨c.toNat % 64, by omega⟩
  rwa [show 64 * (c.toNat / 64) + c.toNat % 64 = c.toNat by omega, BitVec.ofNat_toNat, BitVec.setWidth_eq] at this

/-- What lawfulness asks of one code of the stand-in, as one check. -/
def standInCheck (c : Code) : Bool :=
  let word := standIn.wordOf c
  standInCode word == c && Nat.ble 1 word.length && Nat.ble word.length 4 &&
    (word.all fun ch => ch.isUpper || ch.isDigit) && (word.getLast?.all fun ch => !ch.isDigit)

theorem standIn_checks : ∀ c : Code, standInCheck c = true := forall_code (by decide +kernel)

theorem standIn_lawful : standIn.Lawful := by
  have checks := standIn_checks
  simp only [standInCheck, Bool.and_eq_true, beq_iff_eq, Nat.ble_eq] at checks
  exact
    { injective := fun c c' h => by rw [← (checks c).1.1.1.1, h, (checks c').1.1.1.1]
      nonempty := fun c => (checks c).1.1.1.2
      short := fun c => (checks c).1.1.2
      alphanumeric := fun c => by simpa using (checks c).1.2
      noDigitLast := fun c ch h => by simpa [h] using (checks c).2
      known := by decide }

/-- The source's third vector end to end: six bytes to tokens (95_test_vectors.md V3). -/
theorem test_encode_bytes_foo :
    (encodeBytes standIn true [0, 0, 0, 0x66, 0x6F, 0x6F] .reset).toOption.map (·.1) =
      some [['A'], ['A'], ['H', 'A', 'Y'], ['S', 'L', 'E', 'W'], ['T', 'R', 'O', 'T'], ['A', '2']] := by decide
/-- And back, with lower case accepted (44_host_driver.md R116). -/
theorem test_decode_tokens_foo :
    (decodeTokens standIn true [['a'], ['A'], ['H', 'a', 'y'], ['S', 'L', 'E', 'W'], ['T', 'R', 'O', 'T'], ['A', '2']]
      .reset).toOption.map (·.1) = some [0, 0, 0, 0x66, 0x6F, 0x6F] := by decide +kernel
/-- A marked last group whose codes do not verify (44_host_driver.md R119, R123). -/
theorem test_decode_tokens_integrity :
    (decodeTokens standIn true [['A'], ['A'], ['A'], ['A'], ['A'], ['H', 'A', 'Y', '2']] .reset).map (·.1) =
      .error .integrity := by decide +kernel
theorem test_lookup_long_token : lookupByWord standIn ['A', 'A', 'A', 'A', 'A', 'A'] = .error .invalidWord := by decide

/-! ## Witnesses: every hypothesis of a statement is met by something -/

theorem witness_DecodeInvertsEncode :
    (Instr.encp 15).wellFormed = true ∧ Instr.par.wellFormed = true ∧ decode 0x5F#8 = .ok (.decp 15) := by decide
theorem witness_OpcodeMapSelectsTheCommand : opcodeMap.any (·.selectedBy 0xFF#8) = false := by decide
theorem witness_CommandWordClasses :
    (decode 0x30#8 = .ok (.encp 0) ∧ accepted (.encp 0) = false) ∧ (decode 0x5F#8 = .ok (.decp 15) ∧
      accepted (.decp 15) = false) ∧ (decode 0x0F#8).toOption = none ∧ (decode 0x60#8).toOption = none := by decide
theorem witness_StepRunsTheDecodedCommand :
    ((queued [.write 11 0x36, .read 10]).pending = .write 11 0x36 :: [.read 10] ∧
      decode ((0x36 : PortData).extractLsb' 0 8) = .ok (.encp 6)) ∧
    (queued [.write 15 1]).pending = .write 15 1 :: [] ∧ (queued [.read 0]).pending = .read 0 :: [] ∧
    (queued [.reset, .read 0]).pending = .reset :: [.read 0] := by decide
theorem witness_ReservedWordRaisesIllegalCommand :
    decode ((0x41 : PortData).extractLsb' 0 8) = .error (.mustBeZero 4 1) ∧
      decode ((0xFF00 : PortData).extractLsb' 0 8) = .error (.unassignedOp 0) := by decide
theorem witness_EveryStepCompletes : State.reset.pending = [] := by decide
theorem witness_ReadOnlyAndReservedWritesAreIgnored :
    (7 ≤ (7 : Fin 16).val ∧ (7 : Fin 16).val ≠ 11) ∧ (7 ≤ (10 : Fin 16).val ∧ (10 : Fin 16).val ≠ 11) ∧
    (7 ≤ (15 : Fin 16).val ∧ (15 : Fin 16).val ≠ 11) ∧ 12 ≤ (12 : Fin 16).val := by decide
theorem witness_CmdTakesOnlyItsLowByte :
    (0xFFFFFFFFFFFFFF20 : PortData).toNat % 256 = (0x120 : PortData).toNat % 256 := by decide
theorem witness_OnlyCommandsAndResetChangeResults :
    (∃ t, (queued [.read 8]).pending = .read 8 :: [] ∧ (∀ data, HostAction.read 8 ≠ .write 11 data) ∧
      step (queued [.read 8]) = .next t) ∧
    (∃ t, (queued [.write 0 7]).pending = .write 0 7 :: [] ∧ (∀ data, HostAction.write 0 7 ≠ .write 11 data) ∧
      step (queued [.write 0 7]) = .next t) ∧
    (∃ t, (queued [.write 6 7]).pending = .write 6 7 :: [] ∧ (∀ data, HostAction.write 6 7 ≠ .write 11 data) ∧
      step (queued [.write 6 7]) = .next t ∧ (6 : Fin 16).val ≠ (4 : Fin 6).val + 1 ∧
      (6 : Fin 16).val = (5 : Fin 6).val + 1) ∧
    (∃ t, (queued [.write 15 7]).pending = .write 15 7 :: [] ∧ step (queued [.write 15 7]) = .next t) :=
  ⟨⟨_, rfl, by simp, rfl⟩, ⟨_, rfl, by simp, rfl⟩, ⟨_, rfl, by simp, rfl, by decide, by decide⟩, ⟨_, rfl, rfl⟩⟩
theorem witness_ResetActionYieldsResetState : (queued [.reset, .read 0]).pending = .reset :: [.read 0] := by decide
theorem witness_ParityAddsOverDisjointBits : (5#64) &&& (10#64) = 0#64 := by decide
theorem witness_ParityUnderDigitShifts :
    ((3#64).toNat < 2 ^ (64 - 2 * 31) ∧ 2 * 31 ≤ 64) ∧ (0x30#64).toNat % 2 ^ (2 * 2) = 0 ∧
      (7 ≤ 7 ∧ (0xAB00000000000000#64).toNat % 2 ^ (8 * 7) = 0) := by decide
theorem witness_ParityUnderDigitPermutations :
    (∀ i : Fin 32, digit 4#64 (Equiv.swap (0 : Fin 32) 1 i) = digit 1#64 i) ∧
      (∀ i : Fin 8, lane 0x100#64 (Equiv.swap (6 : Fin 8) 7 i) = lane 1#64 i) := by decide
theorem witness_ParitySeesSingleDigitChanges :
    63 < 64 ∧ 31 < 32 ∧ (∀ j, j < 32 → j ≠ 31 → digit 0xC000000000000000#64 j = digit 0#64 j) ∧
      digit 0xC000000000000000#64 31 ≠ digit 0#64 31 := by decide
theorem witness_reserved_arguments : (1 ≤ 1 ∧ 1 ≤ 15) ∧ (1 ≤ 15 ∧ 15 ≤ 15) := by decide
theorem witness_SentenceIsBlockThenParity : 10 < 11 := by decide
theorem witness_MergeInvertsSlice : slice6 5#64 = slice6 5#64 := rfl
theorem witness_SliceInvertsMergeOnValidSentences : rome.verifies = true := by decide
theorem witness_EncCommand : ∃ t, exec .enc State.reset = .next t := ⟨_, rfl⟩
theorem witness_DecCommand :
    checksOut (loaded 0 rome).w ∧ ¬ checksOut (loaded 0 altered).w ∧ ∃ t, exec .dec (loaded 0 rome) = .next t :=
  ⟨by decide, by decide, _, (execDec_verified (s := loaded 0 rome) (by decide))⟩
theorem witness_SingleBitErrorsAreDetected :
    10 < 11 ∧ (loaded 0 ((slice6 1#64).set 0 ((slice6 1#64).get 0 ^^^ (1#11 <<< 10)))).w =
      (slice6 1#64).set 0 ((slice6 1#64).get 0 ^^^ (1#11 <<< 10)) := by decide
theorem witness_SubstitutedSlotNeverDecodesToTheOriginal :
    (0x689#11 ≠ (slice6 0xD1854218EBBB0B51#64).get 0 ∧
      (loaded 0 ((slice6 0xD1854218EBBB0B51#64).set 0 0x689#11)).w = (slice6 0xD1854218EBBB0B51#64).set 0 0x689#11 ∧
      ((slice6 0xD1854218EBBB0B51#64).set 0 0x689#11).verifies = true) ∧
    (0x546#11 ≠ (slice6 0xD1854218EBBB0B51#64).get 5 ∧
      ((slice6 0xD1854218EBBB0B51#64).set 5 0x546#11).verifies = false) := by decide
theorem witness_source_block_lengths :
    (1 ≤ 1 ∧ 1 ≤ 8 ∧ 1 ≤ 5) ∧ (1 ≤ 6 ∧ 6 ≤ 8 ∧ 6 ≤ 6) ∧ (1 ≤ 7 ∧ 7 ≤ 8 ∧ 7 = 7) ∧ (1 ≤ 8 ∧ 8 ≤ 8) := by decide
theorem witness_EncpOutOfRange : (0 = 0 ∨ 9 ≤ 0) ∧ (9 = 0 ∨ 9 ≤ 9) ∧ (15 = 0 ∨ 9 ≤ 15) := by decide
theorem witness_EncpCommand :
    ((0xAB00000000000000#64).toNat % 2 ^ (8 * (8 - 1)) = 0 ∧ keptBytes 0x00000000000000FF#64 7 = 0#64) ∧
      (loaded 0x000000666F6FDEAD rome).d = 0x000000666F6FDEAD#64 := by decide
theorem witness_DecpCommand :
    (0 ≤ 7 ∧ 7 ≤ 7) ∧ checksOut (loaded 0 rome).w ∧ ¬ checksOut (loaded 0 altered).w ∧
    valueOf (slice6 0xAB00000000000000#64) % 2 ^ (8 * 7) = 0 ∧
    (loaded 0 ⟨0, 0, 0x0CC, 0x6F6, 0x780, 0⟩).w = ⟨0x000#11, 0x000#11, 0x0CC#11, 0x6F6#11, 0x780#11, 0x000#11⟩ := by
  decide
theorem witness_DecpOutOfRange : 8 ≤ 8 ∧ 8 ≤ 15 := by decide
theorem witness_DiscardedBytesAreNotExamined :
    (1 ≤ 6 ∧ 6 ≤ 8 ∧ 7 ≤ 7 ∧ ∃ t, exec (.encp 6) (loaded 0xFFFFFFFFFFFFFFFF rome) = .next t) ∧
      (loaded 7 ⟨0#11, 0#11, 0#11, 0#11, 0#11, 5#11⟩).w = ⟨0#11, 0#11, 0#11, 0#11, 0#11, 5#11⟩ :=
  ⟨⟨by decide, by decide, by decide, _, execEncp_accepted (by decide) (by decide) _⟩, rfl⟩
theorem witness_FailedCommandWritesStatusOnly :
    (∃ t, performCommand 0x41#8 State.reset = .next t ∧ t.err ≠ 0#2) ∧
      ∃ t, performCommand 0x40#8 (loaded 0 altered) = .next t ∧ t.err ≠ 0#2 :=
  ⟨⟨_, rfl, by decide⟩, ⟨{ loaded 0 altered with st := 1 }, rfl, by decide⟩⟩
theorem witness_StatusValues : ∃ t, step (queued [.reset]) = .next t ∧ t.st = 0#3 := ⟨_, rfl, rfl⟩
theorem witness_ErrorPriority : ∃ t, performCommand 0x58#8 (loaded 0 altered) = .next t := ⟨_, rfl⟩
theorem witness_CommandsReadOnlyTheirOperands :
    (∃ t t', (loaded 9 rome).d = (loaded 9 altered).d ∧ exec .par (loaded 9 rome) = .next t ∧
      exec .par (loaded 9 altered) = .next t') ∧
    (∃ t t', (loaded 9 rome).d = (loaded 9 altered).d ∧ exec .enc (loaded 9 rome) = .next t ∧
      exec .enc (loaded 9 altered) = .next t') ∧
    (∃ t t', (loaded 9 rome).d = (loaded 9 altered).d ∧ exec (.encp 2) (loaded 9 rome) = .next t ∧
      exec (.encp 2) (loaded 9 altered) = .next t' ∧ t.vld = true) ∧
    (∃ t t', (loaded 1 rome).w = (loaded 9 rome).w ∧ exec .dec (loaded 1 rome) = .next t ∧
      exec .dec (loaded 9 rome) = .next t' ∧ t.vld = true) ∧
    (∃ t t', (loaded 1 rome).w = (loaded 9 rome).w ∧ exec (.decp 7) (loaded 1 rome) = .next t ∧
      exec (.decp 7) (loaded 9 rome) = .next t' ∧ t.vld = true) :=
  ⟨⟨_, _, rfl, rfl, rfl⟩, ⟨_, _, rfl, rfl, rfl⟩,
   ⟨_, _, rfl, execEncp_accepted (by decide) (by decide) _, execEncp_accepted (by decide) (by decide) _, rfl⟩,
   ⟨_, _, rfl, execDec_verified (s := loaded 1 rome) (by decide), execDec_verified (s := loaded 9 rome) (by decide), rfl⟩,
   ⟨_, _, rfl, execDecp_verified (s := loaded 1 rome) (by decide) (by decide),
     execDecp_verified (s := loaded 9 rome) (by decide) (by decide), rfl⟩⟩
theorem witness_ReissuingChangesNothing : ∃ t, performCommand 0x33#8 (loaded 0xFFFFFFFFFFFFFFFF rome) = .next t :=
  ⟨_, rfl⟩
theorem witness_EveryStepKeepsConsistency :
    (queued [.write 11 0x31]).consistent ∧ ∃ t, step (queued [.write 11 0x31]) = .next t := ⟨by decide, _, rfl⟩
theorem witness_ReachableCountsAgree :
    ∃ t, Sys2Proof.core.run 2 { State.reset with pending := [.write 11 0x31, .write 11 0x57] } = .next t := ⟨_, rfl⟩
theorem witness_CodecPostconditions :
    (∃ t, exec .enc (loaded 9 altered) = .next t ∧ t.vld = true) ∧
    (∃ t, exec (.encp 1) (loaded 9 altered) = .next t ∧ t.vld = true) ∧
    (∃ t, exec .dec (loaded 9 rome) = .next t ∧ t.vld = true) ∧
    (∃ t, exec (.decp 7) (loaded 9 rome) = .next t ∧ t.vld = true) :=
  ⟨⟨_, rfl, rfl⟩, ⟨_, execEncp_accepted (by decide) (by decide) _, rfl⟩, ⟨_, execDec_verified (s := loaded 9 rome) (by decide), rfl⟩,
   ⟨_, execDecp_verified (s := loaded 9 rome) (by decide) (by decide), rfl⟩⟩
theorem witness_AlignedBytesRoundTrip : standIn.Lawful ∧ (List.replicate 16 (0xA5 : Byte)).length % 8 = 0 :=
  ⟨standIn_lawful, by decide⟩
theorem witness_PaddedBytesRoundTrip : standIn.Lawful := standIn_lawful
theorem witness_HostErrorsAreClassified :
    5 ≤ (['A', 'A', 'A', 'A', 'A'] : Token).length ∧
    (1 ≤ (['a', '2'] : Token).length ∧ (['a', '2'] : Token).length ≤ 4 ∧
      ∀ c, standIn.wordOf c ≠ (['a', '2'] : Token).map Char.toUpper) ∧
    (standIn.Lawful ∧ standIn.wordOf 204#11 = (['h', 'a', 'y'] : Token).map Char.toUpper) ∧
    (lookupSix standIn ['A'] ['A'] ['A'] ['A'] ['A'] ['H', 'A', 'Y'] = .ok ⟨0, 0, 0, 0, 0, 204⟩ ∧
      lookupSix standIn ['A'] ['A'] ['A'] ['A'] ['A'] (stripMarker ['H', 'A', 'Y', '2']).1 = .ok ⟨0, 0, 0, 0, 0, 204⟩ ∧
      ¬ checksOut ⟨0, 0, 0, 0, 0, 204⟩) ∧
    (∃ u, decodeTokens standIn false [] State.reset = .ok ([], u)) ∧ (List.replicate 6 (['A'] : Token)).length % 6 = 0 ∧
    ([['A']] : List Token).length % 6 ≠ 0 ∧ ([1, 2, 3] : List Byte).length % 8 ≠ 0 :=
  ⟨by decide,
   ⟨by decide, by decide, fun c h => absurd (standIn_lawful.noDigitLast c '2' (by rw [h]; decide)) (by decide)⟩,
   ⟨standIn_lawful, by decide⟩, ⟨by decide +kernel, by decide +kernel, by decide⟩, ⟨_, rfl⟩, by decide, by decide,
   by decide⟩

end Sys2Proof.Tests
end

/-! # Registers and status (10_state.md): proofs of the family's obligations -/

/-! ## What a command can do, branch by branch -/

namespace Sys2Proof.Machine

@[simp] theorem exec_par (s : State) : exec .par s = execPar s := rfl
@[simp] theorem exec_enc (s : State) : exec .enc s = execEnc s := rfl
@[simp] theorem exec_encp (n : Nat) (s : State) : exec (.encp n) s = execEncp n s := rfl
@[simp] theorem exec_dec (s : State) : exec .dec s = execDec s := rfl
@[simp] theorem exec_decp (p : Nat) (s : State) : exec (.decp p) s = execDecp p s := rfl

@[simp] theorem raise_err (e : CommandError) (s : State) : (raise e s).err = e.code := by
  cases e <;> rfl

@[simp] theorem raise_vld (e : CommandError) (s : State) : (raise e s).vld = false := by
  rw [State.vld, raise_st]
  cases e <;> decide

/-- ST = 0b100 is VLD = 1 with ERR = 0. -/
theorem err_of_success {t : State} (h : t.st = 4#3) : t.err = 0#2 := by
  rw [State.err, h]; rfl

theorem execEncp_refused {n : Nat} (h : encpLegal n = false) (s : State) :
    execEncp n s = .next { s with st := 2#3 } :=
  ((execEncp_cases n s).resolve_right fun g => by simp [h] at g).2

theorem execDec_rejected {s : State} (h : ¬ checksOut s.w) : execDec s = .next { s with st := 1#3 } :=
  ((execDec_cases s).resolve_right fun g => h g.1).2

theorem execDecp_refused {p : Nat} (h : decpLegal p = false) (s : State) :
    execDecp p s = .next { s with st := 2#3 } :=
  ((execDecp_cases p s).resolve_right (by simp [h])).2

theorem execDecp_rejected {p : Nat} (hp : decpLegal p = true) {s : State} (h : ¬ checksOut s.w) :
    execDecp p s = .next { s with st := 1#3 } :=
  (((execDecp_cases p s).resolve_left (by simp [hp])).resolve_right fun g => h g.2.1).2.2

/-- What a command that runs can do to ST, PAD and CNT: it raises an error and nothing else, or it succeeds and either
leaves both counts (PAR) or reports some padding amount `p` with its byte count (10_state.md R18, R23, R24). -/
theorem exec_effect {i : Instr} {s t : State} (h : exec i s = .next t) :
    (∃ e, t = raise e s) ∨
    (t.st = 4#3 ∧ ((t.pad = s.pad ∧ t.cnt = s.cnt) ∨ ∃ p ≤ 7, t.pad = .ofNat 3 p ∧ t.cnt = .ofNat 4 (8 - p))) := by
  cases i with
  | par =>
    cases (execPar_cases s).symm.trans h
    exact .inr ⟨rfl, .inl ⟨rfl, rfl⟩⟩
  | enc =>
    cases (execEnc_cases s).symm.trans h
    exact .inr ⟨rfl, .inr ⟨0, by omega, rfl, rfl⟩⟩
  | encp n =>
    rcases execEncp_cases n s with ⟨_, g⟩ | ⟨hn, g⟩ <;> cases g.symm.trans h
    · exact .inl ⟨.operandRange, rfl⟩
    · obtain ⟨_, h8⟩ := (encpLegal_iff n).mp hn
      exact .inr ⟨rfl, .inr ⟨8 - n, by omega, rfl, by rw [Nat.sub_sub_self h8]⟩⟩
  | dec =>
    rcases execDec_cases s with ⟨_, g⟩ | ⟨_, g⟩ <;> cases g.symm.trans h
    · exact .inl ⟨.integrity, rfl⟩
    · exact .inr ⟨rfl, .inr ⟨0, by omega, rfl, rfl⟩⟩
  | decp p =>
    rcases execDecp_cases p s with ⟨_, g⟩ | ⟨_, _, g⟩ | ⟨hp, _, g⟩ <;> cases g.symm.trans h
    · exact .inl ⟨.operandRange, rfl⟩
    · exact .inl ⟨.integrity, rfl⟩
    · exact .inr ⟨rfl, .inr ⟨p, (decpLegal_iff p).mp hp, rfl, rfl⟩⟩

/-- The same of a command word: a reserved one raises IllegalCommand. -/
theorem performCommand_effect {c : CommandWord} {s t : State} (h : performCommand c s = .next t) :
    (∃ e, t = raise e s) ∨
    (t.st = 4#3 ∧ ((t.pad = s.pad ∧ t.cnt = s.cnt) ∨ ∃ p ≤ 7, t.pad = .ofNat 3 p ∧ t.cnt = .ofNat 4 (8 - p))) := by
  rcases performCommand_cases c s with ⟨i, _, hi⟩ | ⟨_, hill⟩
  · exact exec_effect (hi.symm.trans h)
  · cases hill.symm.trans h
    exact .inl ⟨.illegalCommand, rfl⟩

/-- The four values a command word can leave in ST (10_state.md R16). -/
theorem performCommand_st {c : CommandWord} {s t : State} (h : performCommand c s = .next t) :
    t.st = 4#3 ∨ t.st = 1#3 ∨ t.st = 2#3 ∨ t.st = 3#3 := by
  rcases performCommand_effect h with ⟨e, rfl⟩ | ⟨hst, _⟩
  · cases e with
    | integrity => exact .inr (.inl rfl)
    | operandRange => exact .inr (.inr (.inl rfl))
    | illegalCommand => exact .inr (.inr (.inr rfl))
  · exact .inl hst

/-! ## What a step can do -/

/-- Every access completes, and so does every step (70_reset_and_hazards.md R156). -/
theorem exists_step (s : State) : ∃ t, step s = .next t := by
  cases h : s.pending with
  | nil => exact ⟨s, step_nil h⟩
  | cons a rest =>
    obtain ⟨t, ht, _⟩ := perform_next a { s with pending := rest }
    exact ⟨t, (step_cons h).trans ht⟩

/-- What a step can be: a reset, a command, or something that keeps PAD, CNT, Q and ST (idling, a read or a write of
another register; 20_memory.md R33-R35, 60_exceptions.md R142). -/
theorem step_effect {s t : State} (h : step s = .next t) :
    (t.pad = s.pad ∧ t.cnt = s.cnt ∧ t.q = s.q ∧ t.st = s.st) ∨
    (∃ rest, s.pending = .reset :: rest ∧ t = resetUnit { s with pending := rest }) ∨
    (∃ data rest, s.pending = .write 11 data :: rest ∧
      performCommand (commandWord data) { s with pending := rest } = .next t) := by
  cases hp : s.pending with
  | nil => cases (step_nil hp).symm.trans h; exact .inl ⟨rfl, rfl, rfl, rfl⟩
  | cons a rest =>
    rw [step_cons hp] at h
    cases a with
    | read idx => cases h; exact .inl ⟨rfl, rfl, rfl, rfl⟩
    | reset => cases h; exact .inr (.inl ⟨rest, rfl, rfl⟩)
    | write idx data =>
      by_cases hi : idx = 11
      · subst hi; exact .inr (.inr ⟨data, rest, rfl, h⟩)
      · rw [perform, regWrite_store hi] at h; cases h
        exact .inl ⟨by simp, by simp, by simp, by simp⟩

/-- A predicate that holds at the start and that every step keeps holds at the end of a run. -/
theorem run_induction {P : State → Prop} (keeps : ∀ s t, P s → step s = .next t → P t) :
    ∀ (k : Nat) {s t : State}, P s → Sys2Proof.core.run k s = .next t → P t
  | 0, _, _, hs, h => by cases h; exact hs
  | k + 1, s, _, hs, h => by
    obtain ⟨u, hu⟩ := exists_step s
    exact run_induction keeps k (keeps s u hs hu) ((run_succ hu k).symm.trans h)

/-! ## The invariants I-1 and I-2 -/

theorem resetUnit_consistent (s : State) : (resetUnit s).consistent := ⟨rfl, fun _ => rfl⟩

/-- I-1 and I-2 speak of PAD, CNT and ST only. -/
theorem consistent_congr {s t : State} (hpad : t.pad = s.pad) (hcnt : t.cnt = s.cnt) (hst : t.st = s.st)
    (h : s.consistent) : t.consistent := by
  simpa only [State.consistent, State.vld, State.err, hpad, hcnt, hst] using h

theorem raise_consistent {s : State} (e : CommandError) (h : s.consistent) : (raise e s).consistent :=
  ⟨h.1, by simp⟩

/-- A padding amount and its byte count, as PAD and CNT hold them, agree: neither is cut off (10_state.md R18). -/
theorem counts_agree {p : Nat} (hp : p ≤ 7) : (BitVec.ofNat 4 (8 - p)).toNat = 8 - (BitVec.ofNat 3 p).toNat := by
  simp only [BitVec.toNat_ofNat]
  omega

theorem performCommand_consistent {c : CommandWord} {s t : State} (hs : s.consistent)
    (h : performCommand c s = .next t) : t.consistent := by
  rcases performCommand_effect h with ⟨e, rfl⟩ | ⟨hst, ⟨hpad, hcnt⟩ | ⟨p, hp, hpad, hcnt⟩⟩
  · exact raise_consistent e hs
  · exact ⟨by rw [hpad, hcnt]; exact hs.1, fun _ => err_of_success hst⟩
  · exact ⟨by rw [hpad, hcnt]; exact counts_agree hp, fun _ => err_of_success hst⟩

theorem step_consistent {s t : State} (hs : s.consistent) (h : step s = .next t) : t.consistent := by
  rcases step_effect h with ⟨hpad, hcnt, _, hst⟩ | ⟨rest, _, rfl⟩ | ⟨data, rest, _, hc⟩
  · exact consistent_congr hpad hcnt hst hs
  · exact resetUnit_consistent _
  · exact performCommand_consistent (s := { s with pending := rest }) hs hc

/-- Settles O54: a step resets, runs a command, or leaves PAD, CNT and ST alone. -/
theorem everyStepKeepsConsistency : Obligations.EveryStepKeepsConsistency :=
  fun _ _ hs h => step_consistent hs h

/-- Settles O55: these are the reset values, which a reset action writes. -/
theorem resetIsConsistent : Obligations.ResetIsConsistent :=
  fun acts answers => resetUnit_consistent { State.reset with pending := acts, answers := answers }

/-- Settles O56: I-1 along the run, and PAD has 3 bits. -/
theorem reachableCountsAgree : Obligations.ReachableCountsAgree := by
  intro acts k t h
  have consistent : t.consistent := run_induction (P := State.consistent) (fun _ _ => step_consistent) k
    (resetUnit_consistent { State.reset with pending := acts }) h
  have hcnt := consistent.1
  have hpad := t.pad.isLt
  omega

/-! ## Errors and status -/

/-- Settles O48: ERR = 0 after a success, so the command raised an error. -/
theorem failedCommandWritesStatusOnly : Obligations.FailedCommandWritesStatusOnly := by
  intro c s t h herr
  rcases performCommand_effect h with ⟨e, rfl⟩ | ⟨hst, _⟩
  · exact ⟨rfl, raise_vld e s⟩
  · exact absurd (err_of_success hst) herr

/-- Settles O49: of the accesses only a command and a reset write ST, and no command writes 0 there. -/
theorem statusValues : Obligations.StatusValues := by
  refine ⟨fun c s => ?_, fun s t h h0 => ?_⟩
  · obtain ⟨t, ht, _⟩ := performCommand_next c s
    exact ⟨t, ht, performCommand_st ht⟩
  · rcases step_effect h with ⟨_, _, _, hst⟩ | ⟨rest, hp, _⟩ | ⟨data, rest, _, hc⟩
    · exact .inl (hst ▸ h0)
    · exact .inr (by rw [hp]; rfl)
    · have hst := performCommand_st hc
      simp [h0] at hst

/-- No command reads ST, and every branch of every command writes it. -/
theorem exec_ignores_st (i : Instr) (s : State) (x : BitVec 3) : exec i { s with st := x } = exec i s := by
  cases i <;> rfl

/-- Settles O50: a word runs a command or raises IllegalCommand, and neither looks at ST. -/
theorem errorsAreNotSticky : Obligations.ErrorsAreNotSticky := by
  intro c s x
  cases h : decode c with
  | ok i => rw [performCommand_ok h, performCommand_ok h, exec_ignores_st]
  | error why => rw [performCommand_error h, performCommand_error h]

/-! ## CMD and reset -/

theorem commandWord_eq_ofNat (data : PortData) : commandWord data = BitVec.ofNat 8 (data.toNat % 256) := by
  apply BitVec.eq_of_toNat_eq
  simp [commandWord, BitVec.extractLsb'_toNat]

/-- Settles O13: the command word is the low byte of the data. -/
theorem cmdTakesOnlyItsLowByte : Obligations.CmdTakesOnlyItsLowByte := by
  intro s data data'
  refine ⟨?_, fun low => ?_, rfl⟩
  · rw [regWrite_cmd, commandWord_eq_ofNat]
  · rw [regWrite_cmd, regWrite_cmd, commandWord_eq_ofNat, commandWord_eq_ofNat, low]

/-- Settles O15: the reset Sentence is the encoding of the reset block, with its parity. -/
theorem resetValues : Obligations.ResetValues := by
  have hw : slice6 State.reset.d = State.reset.w := by decide
  have hq : par2 State.reset.d = State.reset.q := by decide
  refine ⟨rfl, rfl, rfl, rfl, rfl, rfl, rfl, rfl, ?_⟩
  rw [exec_enc, execEnc_cases, hw, hq]
  rfl

/-- Settles O16: the step takes the reset at the head of the host's accesses. -/
theorem resetActionYieldsResetState : Obligations.ResetActionYieldsResetState :=
  fun _ _ h => step_cons h

/-! ## Operands and postconditions of the commands -/

/-- Slicing a block and merging gives the block back (41_encode.md R83). -/
theorem slice6_value (v : Block) : (slice6 v).value = v := by
  obtain ⟨h0, h1, h2, h3, h4, h5⟩ := slice6_toNat v
  have hq := (par2 v).isLt
  apply BitVec.eq_of_toNat_eq
  rw [Sentence.value_toNat, valueOf, h0, h1, h2, h3, h4, h5]
  omega

theorem merge6_slice6 (v : Block) : merge6 (slice6 v) = ⟨v, par2 v, par2 v⟩ := by
  have embedded : (merge6 (slice6 v)).embedded = par2 v := by
    obtain ⟨_, _, _, _, _, h5⟩ := slice6_toNat v
    have hq := (par2 v).isLt
    apply BitVec.eq_of_toNat_eq
    rw [embedded_toNat, h5]
    omega
  calc merge6 (slice6 v)
      = ⟨(slice6 v).value, (merge6 (slice6 v)).embedded, par2 (slice6 v).value⟩ := rfl
    _ = ⟨v, par2 v, par2 v⟩ := by rw [slice6_value, embedded]

/-- Merging a Sentence that verifies and slicing gives the Sentence back (42_decode.md R94). -/
theorem slice6_value_of_checksOut {w : Sentence} (h : checksOut w) : slice6 w.value = w := by
  obtain ⟨h0, h1, h2, h3, h4, h5⟩ := slice6_toNat w.value
  have hw0 := w.w0.isLt
  have hw1 := w.w1.isLt
  have hw2 := w.w2.isLt
  have hw3 := w.w3.isLt
  have hw4 := w.w4.isLt
  have hw5 := w.w5.isLt
  rw [par2_toNat_eq_parityOf, Sentence.value_toNat, ← h] at h5
  rw [Sentence.value_toNat] at h0 h1 h2 h3 h4
  simp only [valueOf] at h0 h1 h2 h3 h4 h5
  ext1 <;> apply BitVec.eq_of_toNat_eq <;> omega

theorem zextBlock_low_bits (v : Block) (n : Nat) : (zextBlock v n).toNat % 2 ^ (8 * (8 - n)) = 0 := by
  rw [zextBlock_toNat, Nat.mul_mod_left]

theorem shifted_lt (v : Block) {p : Nat} (hp : p ≤ 7) : (v >>> (8 * p)).toNat < 2 ^ (8 * (8 - p)) := by
  have split : 2 ^ (8 * p) * 2 ^ (8 * (8 - p)) = 2 ^ 64 := by
    rw [← pow_add]; congr 1; omega
  rw [BitVec.toNat_ushiftRight, Nat.shiftRight_eq_div_pow]
  exact Nat.div_lt_of_lt_mul (split ▸ v.isLt)

/-- What a successful ENCP leaves. -/
theorem execEncp_success {n : Nat} {s t : State} (h : execEncp n s = .next t) (hv : t.vld = true) :
    t.d = zextBlock s.d n ∧ t.w = slice6 t.d ∧ t.q = par2 t.d := by
  rcases execEncp_cases n s with ⟨_, g⟩ | ⟨_, g⟩ <;> cases g.symm.trans h
  · simp [State.vld] at hv
  · exact ⟨rfl, rfl, rfl⟩

/-- What a successful DEC leaves. -/
theorem execDec_success {s t : State} (h : execDec s = .next t) (hv : t.vld = true) :
    checksOut t.w ∧ t.d = t.w.value ∧ t.q = par2 t.d := by
  rcases execDec_cases s with ⟨_, g⟩ | ⟨hw, g⟩ <;> cases g.symm.trans h
  · simp [State.vld] at hv
  · exact ⟨hw, rfl, rfl⟩

/-- What a successful DECP leaves in D. -/
theorem execDecp_success {p : Nat} {s t : State} (h : execDecp p s = .next t) (hv : t.vld = true) :
    p ≤ 7 ∧ t.d = s.w.value >>> (8 * p) := by
  rcases execDecp_cases p s with ⟨_, g⟩ | ⟨_, _, g⟩ | ⟨hp, _, g⟩ <;> cases g.symm.trans h
  · simp [State.vld] at hv
  · simp [State.vld] at hv
  · exact ⟨(decpLegal_iff p).mp hp, rfl⟩

/-- I-3 (10_state.md R27): right after a successful encode. -/
theorem encode_postcondition {i : Instr} {s t : State} (h : exec i s = .next t) (hv : t.vld = true)
    (hi : i = .enc ∨ ∃ n, i = .encp n) : merge6 t.w = ⟨t.d, t.q, t.q⟩ := by
  have written : t.w = slice6 t.d ∧ t.q = par2 t.d := by
    rcases hi with rfl | ⟨n, rfl⟩
    · cases (execEnc_cases s).symm.trans h
      exact ⟨rfl, rfl⟩
    · exact (execEncp_success h hv).2
  obtain ⟨hw, hq⟩ := written
  rw [hw, hq, merge6_slice6]

/-- I-4 (10_state.md R27): right after a successful DEC. -/
theorem dec_postcondition {s t : State} (h : execDec s = .next t) (hv : t.vld = true) :
    slice6 t.d = t.w ∧ t.q = par2 t.d ∧ t.q = t.w.w5.extractLsb' 0 2 := by
  obtain ⟨hw, hd, hq⟩ := execDec_success h hv
  have parities : t.w.w5.extractLsb' 0 2 = par2 t.w.value := (embedded_eq_computed_iff t.w).mpr hw
  exact ⟨by rw [hd, slice6_value_of_checksOut hw], hq, by rw [hq, hd, parities]⟩

/-- Settles O57: I-3 and I-4, and what ENCP and DECP leave in D (I-3, I-5). -/
theorem codecPostconditions : Obligations.CodecPostconditions := by
  refine ⟨fun i s t => encode_postcondition, fun n s t h hv => ?_, fun s t => dec_postcondition, fun p s t h hv => ?_⟩
  · rw [(execEncp_success h hv).1]
    exact zextBlock_low_bits s.d n
  · obtain ⟨hp, hd⟩ := execDecp_success h hv
    rw [hd]
    exact shifted_lt s.w.value hp

/-- ENCP n on two states with one D. -/
theorem execEncp_reads_d {n : Nat} {s s' t t' : State} (hd : s.d = s'.d) (h : execEncp n s = .next t)
    (h' : execEncp n s' = .next t') :
    t.st = t'.st ∧ t.d = t'.d ∧
    (t.vld = true → t.w = t'.w ∧ t.pad = t'.pad ∧ t.cnt = t'.cnt ∧ t.q = t'.q) := by
  cases hn : encpLegal n with
  | false =>
    rw [execEncp_refused hn] at h h'; cases h; cases h'
    simp [hd, State.vld]
  | true =>
    obtain ⟨h1, h8⟩ := (encpLegal_iff n).mp hn
    rw [execEncp_accepted h1 h8] at h h'; cases h; cases h'
    simp [hd]

/-- DEC on two states with one W. -/
theorem execDec_reads_w {s s' t t' : State} (hw : s.w = s'.w) (h : execDec s = .next t) (h' : execDec s' = .next t') :
    t.st = t'.st ∧ t.w = s.w ∧
    (t.vld = true → t.d = t'.d ∧ t.pad = t'.pad ∧ t.cnt = t'.cnt ∧ t.q = t'.q) := by
  by_cases hs : checksOut s.w
  · rw [execDec_verified hs] at h; rw [execDec_verified (hw ▸ hs)] at h'; cases h; cases h'
    simp [hw]
  · rw [execDec_rejected hs] at h; rw [execDec_rejected (hw ▸ hs)] at h'; cases h; cases h'
    simp [State.vld]

/-- DECP p on two states with one W. -/
theorem execDecp_reads_w {p : Nat} {s s' t t' : State} (hw : s.w = s'.w) (h : execDecp p s = .next t)
    (h' : execDecp p s' = .next t') :
    t.st = t'.st ∧ t.w = s.w ∧
    (t.vld = true → t.d = t'.d ∧ t.pad = t'.pad ∧ t.cnt = t'.cnt ∧ t.q = t'.q) := by
  cases hp : decpLegal p with
  | false =>
    rw [execDecp_refused hp] at h h'; cases h; cases h'
    simp [State.vld]
  | true =>
    by_cases hs : checksOut s.w
    · have h7 := (decpLegal_iff p).mp hp
      rw [execDecp_verified h7 hs] at h; rw [execDecp_verified h7 (hw ▸ hs)] at h'; cases h; cases h'
      simp [hw]
    · rw [execDecp_rejected hp hs] at h; rw [execDecp_rejected hp (hw ▸ hs)] at h'; cases h; cases h'
      simp [State.vld]

/-- Settles O52, command by command: which branch is taken and what it writes depend on the operands only. -/
theorem commandsReadOnlyTheirOperands : Obligations.CommandsReadOnlyTheirOperands := by
  refine ⟨fun s s' t t' hd h h' => ?_, fun s s' t t' hd h h' => ?_, fun n s s' t t' => execEncp_reads_d,
    fun s s' t t' => execDec_reads_w, fun p s s' t t' => execDecp_reads_w⟩
  · rw [exec_par, execPar_cases] at h h'; cases h; cases h'
    simp [hd]
  · rw [exec_enc, execEnc_cases] at h h'; cases h; cases h'
    simp [hd]

end Sys2Proof.Machine

/-! # The register port (20_memory.md): proofs of the family's obligations -/

namespace Sys2Proof.Machine

/-! ## The address map -/

theorem regAt_eq_d_iff (idx : Fin 16) : regAt idx = .d ↔ idx = 0 := by
  revert idx; decide

theorem regAt_eq_w_iff (idx : Fin 16) (k : Fin 6) : regAt idx = .w k ↔ idx.val = k.val + 1 := by
  revert idx k; decide

theorem regAt_reserved {idx : Fin 16} (h : 12 ≤ idx.val) : regAt idx = .reserved := by
  revert idx; decide

/-! ## What a write stores and what it leaves -/

/-- Only D and the slots of W can be stored to (20_memory.md R34). -/
theorem storeReg_ignored {r : Reg} (hd : r ≠ .d) (hw : ∀ k, r ≠ .w k) (data : PortData) (s : State) :
    storeReg r data s = s := by
  cases r with
  | d => exact absurd rfl hd
  | w k => exact absurd rfl (hw k)
  | pad | cnt | q | st | cmd | reserved => rfl

theorem storeReg_other_d {r : Reg} (h : r ≠ .d) (data : PortData) (s : State) : (storeReg r data s).d = s.d := by
  by_cases hw : ∃ k, r = .w k
  · obtain ⟨k, rfl⟩ := hw
    rfl
  · rw [storeReg_ignored h fun k hk => hw ⟨k, hk⟩]

theorem storeReg_other_slot {r : Reg} {k : Fin 6} (h : r ≠ .w k) (data : PortData) (s : State) :
    (storeReg r data s).w.get k = s.w.get k := by
  cases r with
  | w j =>
    rw [storeReg_w_w]
    exact Sentence.get_set_other s.w (fun hkj : k = j => h (congrArg Reg.w hkj.symm)) _
  | d | pad | cnt | q | st | cmd | reserved => rfl

/-- `data[10:0]`, as arithmetic. -/
theorem slotData_eq_ofNat (data : PortData) : data.extractLsb' 0 11 = BitVec.ofNat 11 (data.toNat % 2048) := by
  apply BitVec.eq_of_toNat_eq
  simp [BitVec.extractLsb'_toNat]

theorem regWrite_d (data : PortData) (s : State) : regWrite 0 data s = .next { s with d := data } :=
  regWrite_store (by decide) data s

/-- A write to the index of W[k] replaces slot `k` by the low 11 bits of the data. -/
theorem regWrite_slot {idx : Fin 16} {k : Fin 6} (h : idx.val = k.val + 1) (data : PortData) (s : State) :
    regWrite idx data s = .next { s with w := s.w.set k (BitVec.ofNat 11 (data.toNat % 2048)) } := by
  have not_cmd : idx ≠ 11 := by omega
  rw [regWrite_store not_cmd, (regAt_eq_w_iff idx k).mpr h, ← slotData_eq_ofNat]
  rfl

theorem regRead_eq (idx : Fin 16) (s : State) :
    regRead idx s = .next { s with answers := s.answers ++ [readReg s (regAt idx)] } := rfl

/-! ## The step on the host's accesses -/

/-- Settles O9, by induction on the accesses: the step takes the first and performs it, and what it does is the same
whatever stands behind it. -/
theorem queuedAccessesTakeEffectInOrder : Obligations.QueuedAccessesTakeEffectInOrder := by
  intro acts rest s
  induction acts generalizing s with
  | nil => exact ⟨_, rfl, rfl, rfl⟩
  | cons a acts ih =>
    obtain ⟨u, _, _, performs⟩ := perform_next a s
    obtain ⟨t, all, behind, run⟩ := ih u
    have step_takes_a : step { s with pending := a :: (acts ++ rest) } = .next { u with pending := acts ++ rest } :=
      (step_cons rfl).trans (performs (acts ++ rest))
    exact ⟨t, (performAll_cons (performs rest) acts).trans all, behind,
      (run_succ step_takes_a acts.length).trans run⟩

/-- Settles O14: the step of a read only answers, and that of a write beside CMD only stores in the register of its
index. -/
theorem onlyCommandsAndResetChangeResults : Obligations.OnlyCommandsAndResetChangeResults := by
  intro s t a rest hp not_reset not_cmd h
  rw [step_cons hp] at h
  cases a with
  | reset => exact absurd rfl not_reset
  | read idx =>
    cases h
    exact ⟨rfl, rfl, rfl, rfl, fun _ => ⟨rfl, rfl⟩, fun _ _ => rfl, fun _ _ _ _ => rfl, fun _ _ _ _ _ => rfl⟩
  | write idx data =>
    have hidx : idx ≠ 11 := fun hi => not_cmd data (hi ▸ rfl)
    rw [perform, regWrite_store hidx] at h
    cases h
    refine ⟨by simp, by simp, by simp, by simp, fun hread => ?_, fun _ ha => ?_, fun _ _ ha h0 => ?_,
      fun _ _ k ha hk => ?_⟩
    · simp at hread
    · cases ha
      rfl
    · cases ha
      exact storeReg_other_d (mt (regAt_eq_d_iff idx).mp h0) ..
    · cases ha
      exact storeReg_other_slot (mt (regAt_eq_w_iff idx k).mp hk) ..

/-- Settles O6: the step performs the access at the head of the list, and a decoded word runs its command. -/
theorem stepRunsTheDecodedCommand : Obligations.StepRunsTheDecodedCommand :=
  ⟨fun _ _ _ _ hp decoded => (step_cons hp).trans (performCommand_ok decoded _),
   fun _ _ _ _ => ⟨step_cons, step_cons, step_cons⟩⟩

/-! ## Reads and writes, index by index -/

/-- Settles O10, along the 16 rows of the address map (20_memory.md R31): zero-extending keeps a register's number. -/
theorem readAnswersTheIndexedRegister : Obligations.ReadAnswersTheIndexedRegister := by
  intro s idx
  rw [regRead_eq]
  fin_cases idx <;> simp only [BitVec.ofNat_toNat, BitVec.setWidth_eq] <;> rfl

/-- Settles O11: D takes the whole data, slot `k` the data modulo 2048. -/
theorem writeStoresDataOrSlot : Obligations.WriteStoresDataOrSlot :=
  fun s data => ⟨regWrite_d data s, regWrite_slot (k := 0) rfl data s, regWrite_slot (k := 1) rfl data s,
    regWrite_slot (k := 2) rfl data s, regWrite_slot (k := 3) rfl data s, regWrite_slot (k := 4) rfl data s,
    regWrite_slot (k := 5) rfl data s⟩

/-- Settles O12: the indices from 7 on name neither D nor a slot of W. -/
theorem readOnlyAndReservedWritesAreIgnored : Obligations.ReadOnlyAndReservedWritesAreIgnored := by
  intro s idx data
  refine ⟨fun h7 h11 => ?_, fun h12 => ?_⟩
  · have not_d : regAt idx ≠ .d := mt (regAt_eq_d_iff idx).mp (by omega)
    have not_slot (k : Fin 6) : regAt idx ≠ .w k := mt (regAt_eq_w_iff idx k).mp (by omega)
    rw [regWrite_store (by omega), storeReg_ignored not_d not_slot]
  · rw [regAt_reserved h12]
    rfl

end Sys2Proof.Machine

/-! # Command words and Sentences (30_encoding.md): proofs of the family's obligations -/

namespace Sys2Proof

/-! ## The two fields of a command word (R50) -/

@[simp] theorem opField_append (op arg : BitVec 4) : opField (op ++ arg) = op :=
  BitVec.extractLsb'_append_eq_left

@[simp] theorem argField_append (op arg : BitVec 4) : argField (op ++ arg) = arg :=
  BitVec.extractLsb'_append_eq_right

theorem opField_append_argField (c : CommandWord) : opField c ++ argField c = c := by
  have joined : opField c ++ argField c = c.extractLsb' 0 8 :=
    BitVec.extractLsb'_append_extractLsb'_eq_extractLsb' rfl
  rw [joined, BitVec.extractLsb'_eq_self]

theorem opField_eq_iff (c : CommandWord) (op : BitVec 4) : opField c = op ↔ c.toNat / 16 = op.toNat := by
  have fits : c.toNat / 16 < 16 := by omega
  rw [← BitVec.toNat_inj, opField, BitVec.extractLsb'_toNat, Nat.shiftRight_eq_div_pow, Nat.mod_eq_of_lt fits]

theorem argField_toNat (c : CommandWord) : (argField c).toNat = c.toNat % 16 := by
  rw [argField, BitVec.extractLsb'_toNat, Nat.shiftRight_zero]

theorem argField_eq_iff (c : CommandWord) (arg : BitVec 4) : argField c = arg ↔ c.toNat % 16 = arg.toNat := by
  rw [← BitVec.toNat_inj, argField_toNat]

/-! ## The decoder -/

/-- The decoding procedure (R50) on the numbers of the two fields. -/
theorem decode_by_number (c : CommandWord) :
    decode c =
      if c.toNat / 16 = 1 ∧ c.toNat % 16 = 0 then .ok .par
      else if c.toNat / 16 = 2 ∧ c.toNat % 16 = 0 then .ok .enc
      else if c.toNat / 16 = 3 then .ok (.encp (c.toNat % 16))
      else if c.toNat / 16 = 4 ∧ c.toNat % 16 = 0 then .ok .dec
      else if c.toNat / 16 = 5 then .ok (.decp (c.toNat % 16))
      else .error (reservedReason (opField c) (argField c)) := by
  simp only [decode, opField_eq_iff, argField_eq_iff, argField_toNat]
  rfl

/-- Which words decode to what: one word for each command without an immediate, 16 in a row for each with one, and no
other word decodes. -/
theorem decode_cases (c : CommandWord) :
    (c.toNat = 0x10 ∧ decode c = .ok .par) ∨ (c.toNat = 0x20 ∧ decode c = .ok .enc) ∨
    (∃ n < 16, c.toNat = 0x30 + n ∧ decode c = .ok (.encp n)) ∨ (c.toNat = 0x40 ∧ decode c = .ok .dec) ∨
    (∃ p < 16, c.toNat = 0x50 + p ∧ decode c = .ok (.decp p)) ∨
    ((c.toNat / 16 = 0 ∨ 6 ≤ c.toNat / 16 ∨
        ((c.toNat / 16 = 1 ∨ c.toNat / 16 = 2 ∨ c.toNat / 16 = 4) ∧ c.toNat % 16 ≠ 0)) ∧
      ∃ why, decode c = .error why) := by
  rw [decode_by_number]
  split_ifs with hpar henc hencp hdec hdecp
  · exact .inl ⟨by omega, rfl⟩
  · exact .inr (.inl ⟨by omega, rfl⟩)
  · exact .inr (.inr (.inl ⟨c.toNat % 16, by omega, by omega, rfl⟩))
  · exact .inr (.inr (.inr (.inl ⟨by omega, rfl⟩)))
  · exact .inr (.inr (.inr (.inr (.inl ⟨c.toNat % 16, by omega, by omega, rfl⟩))))
  · exact .inr (.inr (.inr (.inr (.inr ⟨by omega, _, rfl⟩))))

theorem decode_encode {i : Instr} (h : i.wellFormed = true) : decode (encode i) = .ok i := by
  cases i with
  | par | enc | dec => rfl
  | encp n | decp n =>
    have fits : n < 16 := of_decide_eq_true h
    simp [decode, encode, Nat.mod_eq_of_lt fits]

/-- A format I command's word carries in bits 3:0 the immediate read from there (R51). -/
theorem append_ofNat_argField (c : CommandWord) {op : BitVec 4} (h : opField c = op) :
    op ++ BitVec.ofNat 4 (argField c).toNat = c := by
  rw [BitVec.ofNat_toNat, BitVec.setWidth_eq, ← h, opField_append_argField]

theorem encode_of_decode {c : CommandWord} {i : Instr} (h : decode c = .ok i) :
    i.wellFormed = true ∧ encode i = c := by
  have word {op arg : BitVec 4} (hc : opField c = op ∧ argField c = arg) : op ++ arg = c := by
    rw [← hc.1, ← hc.2, opField_append_argField]
  have arg_fits : (argField c).toNat < 16 := (argField c).isLt
  simp only [decode] at h
  split_ifs at h with hpar henc hencp hdec hdecp <;> cases h
  · exact ⟨rfl, word hpar⟩
  · exact ⟨rfl, word henc⟩
  · exact ⟨decide_eq_true arg_fits, append_ofNat_argField c hencp⟩
  · exact ⟨rfl, word hdec⟩
  · exact ⟨decide_eq_true arg_fits, append_ofNat_argField c hdecp⟩

/-- Settles O1: the two fields of a word are the opcode and the immediate it was put together from, and they are the
whole word. -/
theorem decodeInvertsEncode : Obligations.DecodeInvertsEncode :=
  ⟨fun _ => decode_encode, fun _ _ => encode_of_decode⟩

/-- Settles O5: each word is the encoding of its command, which decodes back. -/
theorem writtenWordsDecode : Obligations.WrittenWordsDecode :=
  ⟨decode_encode (i := .par) rfl, decode_encode (i := .enc) rfl, decode_encode (i := .encp 6) rfl,
   decode_encode (i := .dec) rfl, decode_encode (i := .decp 2) rfl⟩

/-! ## The opcode map (R52) -/

/-- The mask of a format I row keeps the opcode. -/
theorem and_opMask (c : CommandWord) : c &&& 0xF0#8 = opField c ++ 0#4 := by
  calc c &&& 0xF0#8
      = (opField c ++ BitVec.ofNat 4 (argField c).toNat) &&& 0xF0#8 := by rw [append_ofNat_argField c rfl]
    _ = opField c ++ 0#4 := Laws.EncodesItsRow.immediate_masked _ _

/-- A row with the full mask selects its own bits only. -/
theorem eq_of_selectedBy_fixed {m : String} {bits c : CommandWord}
    (h : (⟨m, bits, 0xFF#8⟩ : OpcodeRow).selectedBy c = true) : c = bits := by
  have masked : c &&& 0xFF#8 = bits := eq_of_beq h
  exact BitVec.and_allOnes.symm.trans masked

/-- A format I row selects by the opcode only. -/
theorem opField_of_selectedBy_immediate {m : String} {op : BitVec 4} {c : CommandWord}
    (h : (⟨m, op ++ 0#4, 0xF0#8⟩ : OpcodeRow).selectedBy c = true) : opField c = op := by
  have masked : c &&& 0xF0#8 = op ++ 0#4 := eq_of_beq h
  rw [and_opMask] at masked
  simpa using congrArg opField masked

/-- A row that selects a word bears the mnemonic of the command the word decodes to. -/
theorem mnemonic_of_selectedBy {c : CommandWord} {r : OpcodeRow} (hr : r ∈ opcodeMap) (h : r.selectedBy c = true) :
    (decode c).toOption.map Instr.mnemonic = some r.mnemonic := by
  simp only [opcodeMap, List.mem_cons, List.not_mem_nil, or_false] at hr
  rcases hr with rfl | rfl | rfl | rfl | rfl
  · cases eq_of_selectedBy_fixed h; rfl
  · cases eq_of_selectedBy_fixed h; rfl
  · have hop : opField c = 3#4 := opField_of_selectedBy_immediate h
    simp [decode, hop, Except.toOption, Instr.mnemonic]
  · cases eq_of_selectedBy_fixed h; rfl
  · have hop : opField c = 5#4 := opField_of_selectedBy_immediate h
    simp [decode, hop, Except.toOption, Instr.mnemonic]

/-- A word that decodes is selected by a row: it is the encoding of its command. -/
theorem exists_row_of_decode {c : CommandWord} {i : Instr} (h : decode c = .ok i) :
    ∃ r ∈ opcodeMap, r.mnemonic = i.mnemonic ∧ r.selectedBy c = true := by
  obtain ⟨wf, rfl⟩ := encode_of_decode h
  cases i with
  | par => exact Laws.EncodesItsRow.par wf
  | enc => exact Laws.EncodesItsRow.enc wf
  | encp n => exact Laws.EncodesItsRow.encp n wf
  | dec => exact Laws.EncodesItsRow.dec wf
  | decp p => exact Laws.EncodesItsRow.decp p wf

/-- No two rows share a mnemonic. -/
theorem countP_mnemonic_le_one (m : String) : opcodeMap.countP (·.mnemonic == m) ≤ 1 := by
  have distinct : (opcodeMap.map (·.mnemonic)).Nodup := by decide
  have once := List.nodup_iff_count_le_one.mp distinct m
  rwa [List.count_eq_countP, List.countP_map] at once

/-- At most one row selects a word: all that do bear the same mnemonic. -/
theorem selected_rows_le_one (c : CommandWord) : (opcodeMap.filter (·.selectedBy c)).length ≤ 1 := by
  rw [← List.countP_eq_length_filter]
  cases h : (decode c).toOption.map Instr.mnemonic with
  | none =>
    have none_selects : opcodeMap.countP (·.selectedBy c) = 0 :=
      List.countP_eq_zero.mpr fun r hr hsel => by simp [mnemonic_of_selectedBy hr hsel] at h
    omega
  | some m =>
    refine le_trans (List.countP_mono_left fun r hr hsel => ?_) (countP_mnemonic_le_one m)
    rw [mnemonic_of_selectedBy hr hsel] at h
    simpa using h

/-- The row that selects a word, if there is one, is that of the decoded command. -/
theorem selected_mnemonic (c : CommandWord) :
    (opcodeMap.find? (·.selectedBy c)).map (·.mnemonic) = (decode c).toOption.map Instr.mnemonic := by
  cases hrow : opcodeMap.find? (·.selectedBy c) with
  | some r =>
    have hsel : r.selectedBy c = true := List.find?_some (p := fun row : OpcodeRow => row.selectedBy c) hrow
    exact (mnemonic_of_selectedBy (List.mem_of_find?_eq_some hrow) hsel).symm
  | none =>
    cases hc : decode c with
    | error why => rfl
    | ok i =>
      obtain ⟨r, hr, _, hsel⟩ := exists_row_of_decode hc
      exact absurd hsel (List.find?_eq_none.mp hrow r hr)

end Sys2Proof

namespace Sys2Proof.Machine

/-- Settles O3: a word that no row selects does not decode, so it raises IllegalCommand. -/
theorem opcodeMapSelectsTheCommand : Obligations.OpcodeMapSelectsTheCommand := by
  refine fun c => ⟨selected_rows_le_one c, selected_mnemonic c, fun no_row s => ?_⟩
  rcases performCommand_cases c s with ⟨i, hc, _⟩ | ⟨_, illegal⟩
  · obtain ⟨r, hr, _, hsel⟩ := exists_row_of_decode hc
    exact absurd hsel (List.any_eq_false.mp no_row r hr)
  · exact illegal

/-! ## What the 256 words do (R54) -/

/-- What a command word does, on the numbers of its two fields. -/
theorem performCommand_by_number (c : CommandWord) (s : State) :
    performCommand c s =
      if c.toNat / 16 = 1 ∧ c.toNat % 16 = 0 then exec .par s
      else if c.toNat / 16 = 2 ∧ c.toNat % 16 = 0 then exec .enc s
      else if c.toNat / 16 = 3 then exec (.encp (c.toNat % 16)) s
      else if c.toNat / 16 = 4 ∧ c.toNat % 16 = 0 then exec .dec s
      else if c.toNat / 16 = 5 then exec (.decp (c.toNat % 16)) s
      else .next { s with st := 3#3 } := by
  rw [performCommand, decode_by_number]
  split_ifs <;> rfl

/-- Settles O2: the fields of the command word are the digits 7:4 and 3:0 of the data. -/
theorem cmdWriteFollowsDecodingProcedure : Obligations.CmdWriteFollowsDecodingProcedure := by
  intro data s
  have word : (commandWord data).toNat = data.toNat % 256 := by
    rw [commandWord_eq_ofNat, BitVec.toNat_ofNat, Nat.mod_mod]
  have op : (commandWord data).toNat / 16 = data.toNat / 16 % 16 := by omega
  have arg : (commandWord data).toNat % 16 = data.toNat % 16 := by omega
  rw [regWrite_cmd, performCommand_by_number, op, arg]

/-- A command whose immediate is out of range raises OperandRange and does nothing else. -/
theorem exec_refused {i : Instr} (h : accepted i = false) (s : State) : exec i s = .next { s with st := 2#3 } := by
  cases i with
  | par | enc | dec => cases h
  | encp n => exact execEncp_refused h s
  | decp p => exact execDecp_refused h s

/-- The commands that the 256 words decode to, in the order of the words. -/
theorem decoded_words :
    (((List.range 256).map (BitVec.ofNat 8)).filterMap fun c => (decode c).toOption) =
      [.par, .enc] ++ (List.range 16).map .encp ++ [.dec] ++ (List.range 16).map .decp := by
  decide

/-- The reserved words: an unassigned opcode, or a must-be-zero field that is not zero. -/
theorem decode_eq_none_iff (c : CommandWord) :
    (decode c).toOption = none ↔
      c.toNat / 16 = 0 ∨ 6 ≤ c.toNat / 16 ∨ (c.toNat / 16 ∈ [1, 2, 4] ∧ c.toNat % 16 ≠ 0) := by
  simp only [List.mem_cons, List.not_mem_nil, or_false]
  rcases decode_cases c with ⟨_, h⟩ | ⟨_, h⟩ | ⟨n, _, _, h⟩ | ⟨_, h⟩ | ⟨p, _, _, h⟩ | ⟨_, why, h⟩ <;>
    simp only [h, Except.toOption, reduceCtorEq, true_iff, false_iff] <;> omega

/-- The words of the commands without an immediate, of ENCP 1..8 and of DECP 0..7. -/
theorem decode_accepted_iff (c : CommandWord) :
    (decode c).toOption.any accepted = true ↔
      c.toNat ∈ [0x10, 0x20, 0x40] ∨ (0x31 ≤ c.toNat ∧ c.toNat ≤ 0x38) ∨ (0x50 ≤ c.toNat ∧ c.toNat ≤ 0x57) := by
  simp only [List.mem_cons, List.not_mem_nil, or_false]
  rcases decode_cases c with ⟨_, h⟩ | ⟨_, h⟩ | ⟨n, _, _, h⟩ | ⟨_, h⟩ | ⟨p, _, _, h⟩ | ⟨_, why, h⟩ <;>
    simp only [h, Except.toOption, Option.any, accepted, encpLegal_iff, decpLegal_iff, reduceCtorEq, true_iff,
      false_iff] <;> omega

/-- The words that decode to a command whose immediate is out of range: the rest of the words that decode. -/
theorem decode_refused_iff (c : CommandWord) :
    (decode c).toOption.any (fun i => !accepted i) = true ↔
      c.toNat = 0x30 ∨ (0x39 ≤ c.toNat ∧ c.toNat ≤ 0x3F) ∨ (0x58 ≤ c.toNat ∧ c.toNat ≤ 0x5F) := by
  have rest : (decode c).toOption.any (fun i => !accepted i) = true ↔
      ¬ (decode c).toOption = none ∧ ¬ (decode c).toOption.any accepted = true := by
    cases (decode c).toOption <;> simp
  rw [rest, decode_eq_none_iff, decode_accepted_iff]
  simp only [List.mem_cons, List.not_mem_nil, or_false]
  omega

/-- Settles O4: the counts are those of the list of decoded commands, and each class of words has its error. -/
theorem commandWordClasses : Obligations.CommandWordClasses := by
  refine ⟨?_, fun c => ⟨decode_eq_none_iff c, decode_accepted_iff c, decode_refused_iff c⟩, fun c i s hc hi => ?_,
    fun c s hc => ?_⟩
  · simp only [decoded_words, List.length_map, List.length_range]
    exact ⟨by decide, by decide, by decide, by decide⟩
  · exact (performCommand_ok hc s).trans (exec_refused hi s)
  · rcases performCommand_cases c s with ⟨i, h, _⟩ | ⟨_, illegal⟩
    · simp [h, Except.toOption] at hc
    · exact illegal

/-! ## The Sentence as one string of 66 bits (R55) -/

/-- The six slots concatenated, most significant first: 66 bits. -/
def Sentence.bits (w : Sentence) : BitVec (11 + 11 + 11 + 11 + 11 + 11) := w.w0 ++ w.w1 ++ w.w2 ++ w.w3 ++ w.w4 ++ w.w5

/-- The 66 bits of any Sentence are the value that merging finds and the embedded parity. -/
theorem Sentence.bits_eq_value_append (w : Sentence) : w.bits = w.value ++ (merge6 w).embedded := by
  have last : w.w5.extractLsb' 2 9 ++ w.w5.extractLsb' 0 2 = w.w5 :=
    (BitVec.extractLsb'_append_extractLsb'_eq_extractLsb' rfl).trans BitVec.extractLsb'_eq_self
  calc w.bits
      = w.w0 ++ w.w1 ++ w.w2 ++ w.w3 ++ w.w4 ++ (w.w5.extractLsb' 2 9 ++ w.w5.extractLsb' 0 2) :=
        congrArg (w.w0 ++ w.w1 ++ w.w2 ++ w.w3 ++ w.w4 ++ ·) last.symm
    _ = w.value ++ (merge6 w).embedded := BitVec.append_assoc.symm

/-- Slot `k` is bits 65 - 11k down to 55 - 11k of the string. -/
theorem Sentence.get_getLsbD (w : Sentence) (k : Fin 6) {j : Nat} (hj : j < 11) :
    (w.get k).getLsbD j = w.bits.getLsbD (55 - 11 * k.val + j) := by
  have above {m : Nat} (hm : 11 ≤ m) : ¬ j + m < 11 := by omega
  rw [Nat.add_comm _ j]
  simp only [Sentence.bits, BitVec.getLsbD_append]
  fin_cases k <;> simp [Sentence.get, hj, above]

theorem slice6_bits (v : Block) : (slice6 v).bits = v ++ par2 v := by
  rw [Sentence.bits_eq_value_append, slice6_value, merge6_slice6]

/-- Settles O27: a Sentence is a string of 66 bits cut in six, and that of a sliced block is the block and its
parity. -/
theorem sentenceIsBlockThenParity : Obligations.SentenceIsBlockThenParity := by
  refine fun v => ⟨slice6_bits v, fun k j hj => ?_⟩
  rw [Sentence.get_getLsbD _ k hj, slice6_bits]

end Sys2Proof.Machine

/-! # The parity (40_parity.md): proofs of the family's obligations -/

namespace Sys2Proof.Machine

/-! ## Digits and the digit sum -/

theorem digitSum_le (v : Block) (k : Nat) : digitSum v k ≤ 3 * k := by
  induction k with
  | zero => exact le_rfl
  | succ k ih =>
    have := digit_lt v k
    rw [digitSum]
    omega

@[simp] theorem digitSum_zero (k : Nat) : digitSum 0#64 k = 0 := by
  induction k with
  | zero => rfl
  | succ k ih => rw [digitSum, ih, digit_eq_div]; simp

/-- A Block has no digit past position 31. -/
theorem digit_of_ge (v : Block) {i : Nat} (hi : 32 ≤ i) : digit v i = 0 := by
  rw [digit_eq_bits, BitVec.getLsbD_of_ge v _ (by omega), BitVec.getLsbD_of_ge v _ (by omega)]
  rfl

theorem toNat_add_two_mul_inj (a b c d : Bool) :
    a.toNat + 2 * b.toNat = c.toNat + 2 * d.toNat ↔ a = c ∧ b = d := by
  revert a b c d
  decide

/-- A digit is its two bits (40_parity.md R72). -/
theorem digit_eq_iff {v v' : Block} {i j : Nat} :
    digit v i = digit v' j ↔
      v.getLsbD (2 * i) = v'.getLsbD (2 * j) ∧ v.getLsbD (2 * i + 1) = v'.getLsbD (2 * j + 1) := by
  rw [digit_eq_bits, digit_eq_bits, toNat_add_two_mul_inj]

/-- A shift by `k` digits moves every digit `k` places down. -/
theorem digit_ushiftRight (v : Block) (k i : Nat) : digit (v >>> (2 * k)) i = digit v (k + i) := by
  rw [digit_eq_iff, BitVec.getLsbD_ushiftRight, BitVec.getLsbD_ushiftRight, Nat.mul_add, Nat.add_assoc]
  exact ⟨rfl, rfl⟩

theorem digitSum_congr {v v' : Block} {k : Nat} (h : ∀ i < k, digit v i = digit v' i) :
    digitSum v k = digitSum v' k := by
  rw [digitSum_eq_sum, digitSum_eq_sum, Finset.sum_congr rfl fun i hi => h i (Finset.mem_range.mp hi)]

/-- The first `k` digits, and then the digits of what a shift by `k` digits leaves. -/
theorem digitSum_add (v : Block) (k n : Nat) : digitSum v (k + n) = digitSum v k + digitSum (v >>> (2 * k)) n := by
  simp only [digitSum_eq_sum, digit_ushiftRight, Finset.sum_range_add]

/-- The digits from position 32 on add nothing. -/
theorem digitSum_of_ge (v : Block) {k : Nat} (hk : 32 ≤ k) : digitSum v k = digitSum v 32 := by
  induction k, hk using Nat.le_induction with
  | base => rfl
  | succ k hk ih => rw [digitSum, ih, digit_of_ge v hk, Nat.add_zero]

/-! ## The digit sum, modulo 4 and in 7 bits (R70, R75) -/

theorem par2_eq_of_digitSum_eq {v v' : Block} (h : digitSum v 32 = digitSum v' 32) : par2 v = par2 v' :=
  congrArg (BitVec.ofNat 2) h

/-- Settles O17: the digit of position `i` is `v / 4 ^ i % 4`. -/
theorem parityIsDigitSumModFour : Obligations.ParityIsDigitSumModFour :=
  par2_toNat_eq_parityOf

/-- Settles O25: each of the 32 digits is at most 3, and taking 7 bits and then 2 of them is taking 2 bits. -/
theorem digitSumFitsSevenBits : Obligations.DigitSumFitsSevenBits := by
  intro v
  have bound : digitSum v 32 ≤ 96 := digitSum_le v 32
  have exact7 : (BitVec.ofNat 7 (digitSum v 32)).toNat = digitSum v 32 := by
    rw [BitVec.toNat_ofNat, Nat.mod_eq_of_lt (by omega)]
  refine ⟨bound, exact7, ?_⟩
  apply BitVec.eq_of_toNat_eq
  rw [par2_toNat, BitVec.extractLsb'_toNat, exact7, Nat.shiftRight_zero]

/-! ## The loops (R71) -/

theorem and_three_toNat (x : Block) : (x &&& 3#64).toNat = digit x 0 := by
  rw [BitVec.toNat_and, digit_eq_div]
  simpa using Nat.and_two_pow_sub_one_eq_mod x.toNat 2

/-- One turn of a loop takes the lowest digit and leaves the rest. -/
theorem digitSum_succ_low (x : Block) (k : Nat) : digitSum x (k + 1) = digit x 0 + digitSum (x >>> 2) k := by
  rw [Nat.add_comm, digitSum_add x 1 k]
  simp [digitSum]

theorem parityLoop_eq (k : Nat) (x : Block) (sum : Nat) : parityLoop k x sum = sum + digitSum x k := by
  induction k generalizing x sum with
  | zero => rfl
  | succ k ih => rw [parityLoop, ih, and_three_toNat, digitSum_succ_low, Nat.add_assoc]

/-- Stopping when the working value is 0 loses nothing: the digits left are all 0. -/
theorem parityLoopEarly_eq (k : Nat) (x : Block) (sum : Nat) : parityLoopEarly k x sum = parityLoop k x sum := by
  induction k generalizing x sum with
  | zero => rfl
  | succ k ih =>
    rw [parityLoopEarly]
    split
    · next done => rw [done, parityLoop_eq, digitSum_zero, Nat.add_zero]
    · exact ih _ _

theorem parityLoopMod4_eq (k : Nat) (x : Block) (sum : Parity) :
    parityLoopMod4 k x sum = sum + BitVec.ofNat 2 (digitSum x k) := by
  induction k generalizing x sum with
  | zero => exact (BitVec.add_zero sum).symm
  | succ k ih =>
    have low : x.extractLsb' 0 2 = BitVec.ofNat 2 (digit x 0) := by
      rw [digit, BitVec.ofNat_toNat, BitVec.setWidth_eq]
    rw [parityLoopMod4, ih, low, digitSum_succ_low, BitVec.ofNat_add, BitVec.add_assoc]

/-- Settles O18: each loop adds the digits of its working value to its running sum. -/
theorem parityLoopsAgree : Obligations.ParityLoopsAgree := by
  refine fun v => ⟨?_, ?_, ?_⟩
  · rw [parityLoop_eq, Nat.zero_add, par2]
  · rw [parityLoopEarly_eq, parityLoop_eq, Nat.zero_add, par2]
  · rw [parityLoopMod4_eq, BitVec.zero_add, par2]

/-! ## The counts of 1 bits (R72) -/

theorem onesAt_le (v : Block) (o k : Nat) : onesAt v o k ≤ k := by
  induction k with
  | zero => exact le_rfl
  | succ k ih =>
    have := Bool.toNat_le (v.getLsbD (2 * k + o))
    rw [onesAt]
    omega

theorem digitSum_eq_ones (v : Block) (k : Nat) : digitSum v k = onesAt v 0 k + 2 * onesAt v 1 k := by
  induction k with
  | zero => rfl
  | succ k ih =>
    rw [digitSum, ih, digit_eq_bits, onesAt, onesAt]
    simp only [Nat.add_zero]
    omega

/-- One more bit in a count changes whether it is odd exactly when the bit is 1. -/
theorem odd_add_toNat (n : Nat) (b : Bool) : decide ((n + b.toNat) % 2 = 1) = (decide (n % 2 = 1) ^^ b) := by
  cases b
  · simp
  · rcases Nat.mod_two_eq_zero_or_one n with h | h <;> simp [h, Nat.add_mod]

/-- The exclusive-or of the bits of one kind says whether their count is odd. -/
theorem foldr_xor_eq (v : Block) (o k : Nat) (b : Bool) :
    (List.range k).foldr (fun i b => v.getLsbD (2 * i + o) ^^ b) b = (decide (onesAt v o k % 2 = 1) ^^ b) := by
  induction k generalizing b with
  | zero => simp [onesAt]
  | succ k ih =>
    rw [List.range_succ, List.foldr_append, ih, onesAt, odd_add_toNat, Bool.xor_assoc]
    rfl

/-- The two bits of the parity, from the counts. -/
theorem par2_bits (v : Block) :
    (par2 v).getLsbD 0 = decide (onesAt v 0 32 % 2 = 1) ∧
    (par2 v).getLsbD 1 = decide ((onesAt v 1 32 + onesAt v 0 32 / 2) % 2 = 1) := by
  simp only [← BitVec.testBit_toNat, par2_toNat, digitSum_eq_ones, Nat.testBit_eq_decide_div_mod_eq]
  exact ⟨decide_eq_decide.mpr (by omega), decide_eq_decide.mpr (by omega)⟩

/-- Settles O19: the digit sum is E + 2*O, and the exclusive-or of the bits of one kind is the oddness of their count;
the carry E/2 is what couples the high parity bit to the even positions. -/
theorem parityFromBitCounts : Obligations.ParityFromBitCounts := by
  intro v e o
  obtain ⟨low, high⟩ := par2_bits v
  have carry : decide ((o + e / 2) % 2 = 1) = (decide (o % 2 = 1) ^^ e.testBit 1) := by
    rw [Nat.testBit_eq_decide_div_mod_eq, pow_one, ← odd_add_toNat]
    rcases Nat.mod_two_eq_zero_or_one (e / 2) with h | h <;> simp [h, Nat.add_mod]
  refine ⟨onesAt_le v 0 32, onesAt_le v 1 32, digitSum_eq_ones v 32, ?_, low, high, ?_, ?_⟩
  · rw [par2_toNat, digitSum_eq_ones]
  · rw [low, ← Bool.xor_false (decide _)]
    exact (foldr_xor_eq v 0 32 false).symm
  · rw [foldr_xor_eq, Bool.xor_false, high]
    exact carry

/-! ## Disjoint bits and lanes (R73 laws 2, 3 and 6) -/

/-- Settles O20: no digit of `a ||| b` carries; `a = b = 1` has a common bit. -/
theorem parityAddsOverDisjointBits : Obligations.ParityAddsOverDisjointBits := by
  refine ⟨fun a b h => ?_, 1#64, 1#64, by decide⟩
  rw [par2, digitSum_or_disjoint h, BitVec.ofNat_add]
  rfl

/-- A Block of `n` groups of four digits, group by group from the lowest. -/
theorem digitSum_four_mul (v : Block) (n : Nat) :
    digitSum v (4 * n) = ∑ m ∈ Finset.range n, digitSum (v >>> (2 * (4 * m))) 4 := by
  induction n with
  | zero => rfl
  | succ n ih => rw [Nat.mul_succ, digitSum_add, ih, Finset.sum_range_succ]

/-- Lane `i` zero-extended has its own four digits and no other: group `7 - i` (20_memory.md R36). -/
theorem digitSum_lane (v : Block) (i : Nat) :
    digitSum ((lane v i).setWidth 64) 32 = digitSum (v >>> (2 * (4 * (7 - i)))) 4 := by
  have upper : (lane v i).setWidth 64 >>> (2 * 4) = 0#64 := by
    apply BitVec.eq_of_getLsbD_eq
    intro n _
    rw [BitVec.getLsbD_ushiftRight, BitVec.getLsbD_setWidth, BitVec.getLsbD_of_ge _ _ (by omega)]
    simp
  have start : 56 - 8 * i = 2 * (4 * (7 - i)) := by omega
  have lower (n : Nat) (hn : n < 8) :
      ((lane v i).setWidth 64).getLsbD n = (v >>> (2 * (4 * (7 - i)))).getLsbD n := by
    have : n < 64 := by omega
    simp [lane, start, hn, this]
  rw [digitSum_add _ 4 28, upper, digitSum_zero, Nat.add_zero]
  exact digitSum_congr fun j hj => digit_congr (lower _ (by omega)) (lower _ (by omega))

theorem digitSum_eq_sum_lanes (v : Block) :
    digitSum v 32 = ∑ i ∈ Finset.range 8, digitSum ((lane v i).setWidth 64) 32 := by
  calc digitSum v 32
      = ∑ m ∈ Finset.range 8, digitSum (v >>> (2 * (4 * m))) 4 := digitSum_four_mul v 8
    _ = ∑ i ∈ Finset.range 8, digitSum (v >>> (2 * (4 * (7 - i)))) 4 :=
        (Finset.sum_range_reflect (fun m => digitSum (v >>> (2 * (4 * m))) 4) 8).symm
    _ = ∑ i ∈ Finset.range 8, digitSum ((lane v i).setWidth 64) 32 := by simp only [digitSum_lane]

/-- Parities added modulo 4 are the parity of the digits added as numbers. -/
theorem foldl_par2_eq (f : Nat → Block) (n : Nat) :
    ((List.range n).map fun i => par2 (f i)).foldl (· + ·) 0#2 =
      BitVec.ofNat 2 (∑ i ∈ Finset.range n, digitSum (f i) 32) := by
  induction n with
  | zero => rfl
  | succ n ih =>
    rw [List.range_succ, List.map_append, List.foldl_append, ih, Finset.sum_range_succ, BitVec.ofNat_add]
    rfl

/-- Settles O21: the digits of a Block are those of its lanes. -/
theorem parityAddsOverLanes : Obligations.ParityAddsOverLanes := by
  intro v
  rw [foldl_par2_eq fun i => (lane v i).setWidth 64, ← digitSum_eq_sum_lanes]
  rfl

/-- A sum over the first `n` numbers does not depend on their order. -/
theorem sum_range_eq_of_perm {n : Nat} {f f' : Nat → Nat} (σ : Equiv.Perm (Fin n))
    (h : ∀ i : Fin n, f' (σ i) = f i) : ∑ i ∈ Finset.range n, f' i = ∑ i ∈ Finset.range n, f i := by
  calc ∑ i ∈ Finset.range n, f' i
      = ∑ i : Fin n, f' i := Finset.sum_range f'
    _ = ∑ i : Fin n, f' (σ i) := (Equiv.sum_comp σ fun i : Fin n => f' i).symm
    _ = ∑ i : Fin n, f i := by simp only [h]
    _ = ∑ i ∈ Finset.range n, f i := (Finset.sum_range f).symm

/-- Settles O23: the digit sum is a sum over the positions and over the lanes, and a permutation only reorders it. -/
theorem parityUnderDigitPermutations : Obligations.ParityUnderDigitPermutations := by
  refine ⟨fun v v' σ h => par2_eq_of_digitSum_eq ?_, fun v v' σ h => par2_eq_of_digitSum_eq ?_, by decide⟩
  · rw [digitSum_eq_sum, digitSum_eq_sum]
    exact sum_range_eq_of_perm σ h
  · rw [digitSum_eq_sum_lanes v', digitSum_eq_sum_lanes v]
    exact sum_range_eq_of_perm σ fun i => by rw [h]

/-! ## Shifts by whole digits (R73 laws 4 and 5) -/

theorem digit_of_low_zero {v : Block} {k i : Nat} (h : v.toNat % 2 ^ (2 * k) = 0) (hi : i < k) : digit v i = 0 := by
  have zero (n : Nat) (hn : n < 2 * k) : v.getLsbD n = false := by
    rw [← BitVec.testBit_toNat, ← Nat.div_add_mod v.toNat (2 ^ (2 * k)), h, Nat.add_zero,
      Nat.testBit_two_pow_mul]
    simp [hn]
  rw [digit_eq_bits, zero _ (by omega), zero _ (by omega)]
  rfl

/-- Dropping zero digits at the low end keeps the parity: the digit sum loses only zeros. -/
theorem par2_ushiftRight {v : Block} {k : Nat} (h : v.toNat % 2 ^ (2 * k) = 0) : par2 (v >>> (2 * k)) = par2 v := by
  apply par2_eq_of_digitSum_eq
  have lost : digitSum v k = 0 := by
    rw [digitSum_eq_sum]
    exact Finset.sum_eq_zero fun i hi => digit_of_low_zero h (Finset.mem_range.mp hi)
  calc digitSum (v >>> (2 * k)) 32
      = digitSum v (k + 32) := by rw [digitSum_add, lost, Nat.zero_add]
    _ = digitSum v 32 := digitSum_of_ge v (by omega)

/-- A left shift that loses no 1 bit is undone by the right shift, which drops zero digits only. -/
theorem par2_shiftLeft {v : Block} {k : Nat} (hv : v.toNat < 2 ^ (64 - 2 * k)) (hk : 2 * k ≤ 64) :
    par2 (v <<< (2 * k)) = par2 v := by
  have fits : v.toNat * 2 ^ (2 * k) < 2 ^ 64 := by
    calc v.toNat * 2 ^ (2 * k) < 2 ^ (64 - 2 * k) * 2 ^ (2 * k) := Nat.mul_lt_mul_of_pos_right hv (by positivity)
      _ = 2 ^ 64 := by rw [← pow_add, Nat.sub_add_cancel hk]
  have shifted : (v <<< (2 * k)).toNat = v.toNat * 2 ^ (2 * k) := by
    rw [BitVec.toNat_shiftLeft, Nat.shiftLeft_eq, Nat.mod_eq_of_lt fits]
  have undone : v <<< (2 * k) >>> (2 * k) = v := by
    apply BitVec.eq_of_toNat_eq
    rw [BitVec.toNat_ushiftRight, shifted, Nat.shiftRight_eq_div_pow, Nat.mul_div_cancel _ (by positivity)]
  have low_zero : (v <<< (2 * k)).toNat % 2 ^ (2 * k) = 0 := by rw [shifted, Nat.mul_mod_left]
  rw [← par2_ushiftRight low_zero, undone]

/-- Settles O22: a whole digit is two bits and a byte is four digits. -/
theorem parityUnderDigitShifts : Obligations.ParityUnderDigitShifts := by
  refine ⟨fun v k => par2_shiftLeft, fun v k => par2_ushiftRight, fun v p _ h => ?_, by decide⟩
  have digits : 8 * p = 2 * (4 * p) := by omega
  rw [digits] at h ⊢
  exact par2_ushiftRight h

/-! ## Changed digits (R74) -/

/-- Blocks that differ in one digit only: their parities differ by those digits. -/
theorem par2_of_one_digit {v v' : Block} {i : Nat} (hi : i < 32)
    (h : ∀ j, j < 32 → j ≠ i → digit v' j = digit v j) :
    par2 v' + BitVec.ofNat 2 (digit v i) = par2 v + BitVec.ofNat 2 (digit v' i) := by
  rw [par2, par2, ← BitVec.ofNat_add, ← BitVec.ofNat_add]
  exact congrArg (BitVec.ofNat 2) (digitSum_of_one_digit hi h)

theorem par2_ne_of_one_digit {v v' : Block} {i : Nat} (hi : i < 32)
    (h : ∀ j, j < 32 → j ≠ i → digit v' j = digit v j) (hne : digit v' i ≠ digit v i) :
    par2 v' ≠ par2 v := by
  intro same
  have sums := digitSum_of_one_digit hi h
  have parities := (par2_eq_iff v' v).mp same
  have := digit_lt v i
  have := digit_lt v' i
  omega

theorem flipBit_getLsbD (v : Block) {i : Nat} (hi : i < 64) (n : Nat) :
    (v ^^^ (1#64 <<< i)).getLsbD n = (v.getLsbD n ^^ decide (i = n)) := by
  rw [← BitVec.twoPow_eq, BitVec.getLsbD_xor, BitVec.getLsbD_twoPow, decide_eq_true hi, Bool.true_and]

/-- A flipped bit changes the digit it stands in and no other. -/
theorem digit_flipBit_eq_iff (v : Block) {i : Nat} (hi : i < 64) (j : Nat) :
    digit (v ^^^ (1#64 <<< i)) j = digit v j ↔ j ≠ i / 2 := by
  rw [digit_eq_iff, flipBit_getLsbD v hi, flipBit_getLsbD v hi]
  have kept (a b : Bool) : (a ^^ b) = a ↔ b = false := by cases a <;> simp
  simp only [kept, decide_eq_false_iff_not]
  omega

/-- Replacing digit `i`, bit by bit: its two bits are those of `x`, every other bit stays. -/
theorem setDigit_getLsbD (v : Block) (i : Nat) (x : BitVec 2) {n : Nat} (hn : n < 64) :
    (setDigit v i x).getLsbD n = if 2 * i ≤ n ∧ n < 2 * i + 2 then x.getLsbD (n - 2 * i) else v.getLsbD n := by
  have mask (m : Nat) : (3#64).getLsbD m = decide (m < 2) := by
    rw [BitVec.getLsbD_ofNat, show 3 = 2 ^ 2 - 1 by rfl, Nat.testBit_two_pow_sub_one, ← Bool.decide_and]
    exact decide_eq_decide.mpr (by omega)
  have near : n - 2 * i < 64 := by omega
  rw [setDigit, BitVec.getLsbD_or, BitVec.getLsbD_and, BitVec.getLsbD_not, BitVec.getLsbD_shiftLeft,
    BitVec.getLsbD_shiftLeft, mask, BitVec.getLsbD_setWidth]
  simp only [hn, near, decide_true, Bool.true_and]
  by_cases below : n < 2 * i
  · simp [below, Nat.not_le.mpr below]
  · by_cases inside : n < 2 * i + 2
    · have : n - 2 * i < 2 := by omega
      simp [below, inside, this, Nat.not_lt.mp below]
    · have above : ¬ n - 2 * i < 2 := by omega
      simp [below, inside, above, BitVec.getLsbD_of_ge x _ (Nat.not_lt.mp above)]

theorem digit_setDigit_same (v : Block) {i : Nat} (hi : i < 32) (x : BitVec 2) :
    digit (setDigit v i x) i = x.toNat := by
  have bits : ∀ y : BitVec 2, (y.getLsbD 0).toNat + 2 * (y.getLsbD 1).toNat = y.toNat := by decide
  rw [digit_eq_bits, setDigit_getLsbD v i x (by omega), setDigit_getLsbD v i x (by omega), if_pos (by omega),
    if_pos (by omega), Nat.sub_self, Nat.add_sub_cancel_left, bits]

theorem digit_setDigit_other (v : Block) {i j : Nat} (hj : j < 32) (h : j ≠ i) (x : BitVec 2) :
    digit (setDigit v i x) j = digit v j := by
  apply digit_congr <;> rw [setDigit_getLsbD _ _ _ (by omega), if_neg (by omega)]

/-- With the rest of the Block fixed, the parity is one digit plus a constant. -/
theorem par2_setDigit (v : Block) {i : Nat} (hi : i < 32) (x : BitVec 2) :
    par2 (setDigit v i x) = x + (par2 v - BitVec.ofNat 2 (digit v i)) := by
  have change := par2_of_one_digit hi fun j hj hne => digit_setDigit_other v hj hne x
  rw [digit_setDigit_same v hi, BitVec.ofNat_toNat, BitVec.setWidth_eq] at change
  rw [eq_sub_of_add_eq change]
  ring

/-- Settles O24: one changed digit moves the digit sum by at most 3, and the parity is any one digit plus a constant;
1 and 4 have two digits exchanged. -/
theorem paritySeesSingleDigitChanges : Obligations.ParitySeesSingleDigitChanges := by
  refine ⟨fun v i hi => ?_, fun v v' i hi => par2_ne_of_one_digit hi, fun v i q hi => ?_,
    1#64, 4#64, 0, 1, by decide⟩
  · exact par2_ne_of_one_digit (i := i / 2) (by omega) (fun j _ hj => (digit_flipBit_eq_iff v hi j).mpr hj)
      fun same => (digit_flipBit_eq_iff v hi _).mp same rfl
  · simp only [par2_setDigit v hi]
    exact (Equiv.addRight _).bijective.existsUnique q

/-! ## PAR (R76) -/

/-- Settles O26: Q gets the parity of D by division, and a PAR word with a non-zero argument field is reserved. -/
theorem parCommand : Obligations.ParCommand := by
  refine ⟨decode_encode (i := .par) rfl, fun s => ?_, fun s a h1 h15 => ?_, by decide⟩
  · rw [exec_par, execPar_cases, par2_eq_ofNat_parityOf]
  · have reserved : (decode (.ofNat 8 (0x10 + a))).toOption = none := by
      rw [decode_eq_none_iff, BitVec.toNat_ofNat]
      simp only [List.mem_cons, List.not_mem_nil, or_false]
      omega
    obtain ⟨_, _, _, illegal⟩ := commandWordClasses
    exact illegal _ s reserved

end Sys2Proof.Machine

/-! # Encoding (41_encode.md): proofs of the family's obligations -/

namespace Sys2Proof.Machine

/-! ## Slicing by division and by the serial procedure (R80, R81) -/

theorem slice6_eq_codesOf (v : Block) : slice6 v = codesOf v := by
  obtain ⟨h0, h1, h2, h3, h4, h5⟩ := slice6_toNat v
  rw [par2_toNat_eq_parityOf] at h5
  ext1 <;> apply BitVec.eq_of_toNat_eq
  all_goals simp only [h0, h1, h2, h3, h4, h5, codesOf, BitVec.toNat_ofNat, parityOf]
  all_goals omega

/-- The procedure's masks keep 9 and 11 bits, its shifts divide, and its `|` puts the parity into two free bits. -/
theorem slice6Serial_eq_codesOf (v : Block) : slice6Serial v = codesOf v := by
  have low9 (x : Nat) : x &&& 0x1FF = x % 512 := Nat.and_two_pow_sub_one_eq_mod x 9
  have low11 (x : Nat) : x &&& 0x7FF = x % 2048 := Nat.and_two_pow_sub_one_eq_mod x 11
  have last : (v.toNat % 512) <<< 2 ||| (par2 v).toNat = v.toNat % 512 * 4 + parityOf v.toNat := by
    rw [← Nat.shiftLeft_add_eq_or_of_lt (par2 v).isLt, Nat.shiftLeft_eq, par2_toNat_eq_parityOf]
  have first : v.toNat / 2 ^ 53 % 2048 = v.toNat / 2 ^ 53 := by omega
  simp only [slice6Serial, codesOf, low9, low11, last, Nat.shiftRight_eq_div_pow, Nat.div_div_eq_div_mul, ← pow_add,
    Nat.reduceAdd, first]

/-- Settles O28: both sides are the six codes by division. -/
theorem serialSlicingIsSlice6 : Obligations.SerialSlicingIsSlice6 :=
  fun v => ⟨(slice6Serial_eq_codesOf v).trans (slice6_eq_codesOf v).symm, slice6_eq_codesOf v⟩

/-! ## The image of `slice6` (R83, R86) -/

theorem slice6_injective : Function.Injective slice6 := Function.LeftInverse.injective slice6_value

/-- Settles O30: a function with a left inverse is injective. -/
theorem mergeInvertsSlice : Obligations.MergeInvertsSlice :=
  ⟨merge6_slice6, fun _ _ same => slice6_injective same⟩

theorem checksOut_slice6 (v : Block) : checksOut (slice6 v) := by
  rw [← embedded_eq_computed_iff, merge6_slice6]

theorem exists_slice6_eq_iff (w : Sentence) : (∃ v : Block, slice6 v = w) ↔ checksOut w := by
  constructor
  · rintro ⟨v, rfl⟩
    exact checksOut_slice6 v
  · exact fun h => ⟨w.value, slice6_value_of_checksOut h⟩

theorem card_bitVec (n : Nat) : Nat.card (BitVec n) = 2 ^ n := by
  rw [Nat.card_congr BitVec.equivFin.toEquiv, Nat.card_eq_fintype_card, Fintype.card_fin]

/-- A Sentence as the family of its six slots. -/
def Sentence.equivSlots : Sentence ≃ (Fin 6 → Code) where
  toFun w k := w.get k
  invFun f := ⟨f 0, f 1, f 2, f 3, f 4, f 5⟩
  left_inv _ := rfl
  right_inv f := by
    funext k
    fin_cases k <;> rfl

theorem card_sentence : Nat.card Sentence = 2 ^ 66 := by
  rw [Nat.card_congr Sentence.equivSlots, Nat.card_fun, card_bitVec, Nat.card_eq_fintype_card, Fintype.card_fin,
    ← pow_mul]

theorem card_slice6_image : Nat.card { w : Sentence // ∃ v : Block, slice6 v = w } = 2 ^ 64 :=
  (Nat.card_range_of_injective slice6_injective).trans (card_bitVec 64)

/-- With the parity bits written apart, a Sentence is a value of `slice6` exactly when they are the parity of its
value, in which they do not stand. -/
theorem exists_slice6_eq_with_parity_iff (w : Sentence) (data9 : BitVec 9) (q : Parity) :
    (∃ v : Block, slice6 v = { w with w5 := data9 ++ q }) ↔
      q = par2 (w.w0 ++ w.w1 ++ w.w2 ++ w.w3 ++ w.w4 ++ data9) := by
  have embedded : (data9 ++ q).extractLsb' 0 2 = q := BitVec.extractLsb'_append_eq_right
  have data : (data9 ++ q).extractLsb' 2 9 = data9 := BitVec.extractLsb'_append_eq_left
  rw [exists_slice6_eq_iff, ← embedded_eq_computed_iff, merge6, Sentence.value, embedded, data]

/-- Settles O32: a Sentence is six codes of 11 bits, the valid ones are as many as the blocks, and the parity of the
data bits is the one that is valid. -/
theorem validSentencesAreOneInFour : Obligations.ValidSentencesAreOneInFour := by
  refine ⟨card_sentence, card_slice6_image, exists_slice6_eq_iff, fun w data9 => ?_⟩
  simp only [exists_slice6_eq_with_parity_iff]
  exact existsUnique_eq

/-! ## ENC (R85) -/

/-- A word of PAR, ENC or DEC with a non-zero argument field is reserved (30_encoding.md R54). -/
theorem performCommand_nonzero_argument {op : Nat} (hop : op ∈ [1, 2, 4]) {a : Nat} (h1 : 1 ≤ a) (h15 : a ≤ 15)
    (s : State) : performCommand (.ofNat 8 (16 * op + a)) s = .next { s with st := 3#3 } := by
  have reserved : (decode (.ofNat 8 (16 * op + a))).toOption = none := by
    rw [decode_eq_none_iff, BitVec.toNat_ofNat]
    simp only [List.mem_cons, List.not_mem_nil, or_false] at hop ⊢
    omega
  obtain ⟨_, _, _, illegal⟩ := commandWordClasses
  exact illegal _ s reserved

theorem execEnc_by_division (s : State) :
    execEnc s = .next
      { s with w := codesOf s.d, q := .ofNat 2 (parityOf s.d.toNat), pad := 0#3, cnt := 8#4, st := 4#3 } := by
  rw [execEnc_cases, slice6_eq_codesOf, par2_eq_ofNat_parityOf]

/-- Right after ENC the Sentence verifies, so DEC writes the block, its parity and the counts that are there. -/
theorem execDec_after_execEnc {s t : State} (h : execEnc s = .next t) : execDec t = .next t := by
  cases (execEnc_cases s).symm.trans h
  rw [execDec_verified (checksOut_slice6 s.d), slice6_value]

theorem execEnc_again {s t : State} (h : execEnc s = .next t) : execEnc t = .next t := by
  cases (execEnc_cases s).symm.trans h
  rfl

/-- Settles O33: the results of ENC by division, the reserved words next to it, and DEC or ENC right after it. -/
theorem encCommand : Obligations.EncCommand := by
  refine ⟨decode_encode (i := .enc) rfl, execEnc_by_division,
    fun s a h1 h15 => performCommand_nonzero_argument (op := 2) (by decide) h1 h15 s,
    by decide, by decide, by decide, by decide, by decide, by decide,
    fun s t h => ⟨execDec_after_execEnc h, execEnc_again h⟩⟩

end Sys2Proof.Machine

/-! # Decoding (42_decode.md): proofs of the family's obligations -/

namespace Sys2Proof.Machine

/-! ## Merging by the serial procedure (R90-R92) -/

/-- The procedure's shifts multiply, and each `|` puts a code into bits that the shift left free. -/
theorem mergeSerial_eq_valueOf (w : Sentence) : mergeSerial w = valueOf w := by
  have append_code (x : Nat) (c : Code) : x <<< 11 ||| c.toNat = x * 2048 + c.toNat := by
    rw [← Nat.shiftLeft_add_eq_or_of_lt c.isLt, Nat.shiftLeft_eq]
  have append_data9 (x : Nat) : x <<< 9 ||| w.w5.toNat / 4 = x * 512 + w.w5.toNat / 4 := by
    rw [← Nat.shiftLeft_add_eq_or_of_lt (by omega), Nat.shiftLeft_eq]
  have drop_parity : w.w5.toNat >>> 2 = w.w5.toNat / 4 := Nat.shiftRight_eq_div_pow _ 2
  simp only [mergeSerial, List.foldl_cons, List.foldl_nil, append_code, drop_parity, append_data9, valueOf, zero_mul,
    zero_add]

/-- Settles O29: both sides are the value by multiplication, which a 64-bit word holds. -/
theorem serialMergingIsMerge6 : Obligations.SerialMergingIsMerge6 := by
  intro w
  have value : (merge6 w).value.toNat = valueOf w := Sentence.value_toNat w
  rw [mergeSerial_eq_valueOf]
  exact ⟨value.symm, rfl, value ▸ (merge6 w).value.isLt, embedded_toNat w, computed_toNat w⟩

/-! ## Verification picks out the values of `slice6` (R93-R95) -/

/-- Settles O31: verifying is being a value of `slice6`, which is injective. -/
theorem sliceInvertsMergeOnValidSentences : Obligations.SliceInvertsMergeOnValidSentences := by
  refine ⟨fun w h => slice6_value_of_checksOut ((Sentence.verifies_iff w).mp h),
    fun v => ⟨(Sentence.verifies_iff _).mpr (checksOut_slice6 v), slice6_value v⟩, fun w h => ?_⟩
  obtain ⟨v, rfl⟩ := (exists_slice6_eq_iff w).mpr ((Sentence.verifies_iff w).mp h)
  exact ⟨v, rfl, fun _ same => slice6_injective same⟩

/-- The Sentences that are not values of `slice6` are the rest of the 2^66. -/
theorem card_not_slice6_image : Nat.card { w : Sentence // ¬ ∃ v : Block, slice6 v = w } = 3 * 2 ^ 64 := by
  classical
  have finite : Finite Sentence := Nat.finite_of_card_ne_zero (by rw [card_sentence]; decide)
  have parts := Nat.card_congr (Equiv.sumCompl fun w : Sentence => ∃ v : Block, slice6 v = w)
  rw [Nat.card_sum, card_slice6_image, card_sentence] at parts
  omega

theorem execDec_status (s : State) : ∃ t, execDec s = .next t ∧ t.st = if checksOut s.w then 4#3 else 1#3 := by
  split_ifs with h
  · exact ⟨_, execDec_verified h, rfl⟩
  · exact ⟨_, execDec_rejected h, rfl⟩

theorem execDec_succeeds_iff (s : State) : (∃ t, execDec s = .next t ∧ t.st = 4#3) ↔ checksOut s.w := by
  obtain ⟨t, ht, hst⟩ := execDec_status s
  have only : (∃ t, execDec s = .next t ∧ t.st = 4#3) ↔ t.st = 4#3 := by simp [ht]
  rw [only, hst]
  split_ifs with h
  · exact iff_of_true rfl h
  · exact iff_of_false (by decide) h

/-- Settles O35: DEC's status tells the values of `slice6` from the other Sentences, which are counted in R86. -/
theorem decAcceptsExactlyTheValidSentences : Obligations.DecAcceptsExactlyTheValidSentences := by
  refine ⟨fun s => ?_, card_not_slice6_image, fun s data9 => ?_⟩
  · obtain ⟨t, ht, hst⟩ := execDec_status s
    refine ⟨t, ht, ?_⟩
    rw [exists_slice6_eq_iff, hst]
    split_ifs with h
    · exact ⟨iff_of_true rfl h, iff_of_false (by decide) (not_not_intro h)⟩
    · exact ⟨iff_of_false (by decide) h, iff_of_true rfl h⟩
  · obtain ⟨_, _, _, one_parity⟩ := validSentencesAreOneInFour
    simp only [exec_dec, execDec_succeeds_iff, ← exists_slice6_eq_iff]
    exact one_parity s.w data9

/-! ## DEC (R97) -/

theorem execDec_by_arithmetic {s : State} (h : checksOut s.w) :
    execDec s = .next
      { s with d := .ofNat 64 (valueOf s.w), q := .ofNat 2 (parityOf (valueOf s.w)), pad := 0#3, cnt := 8#4,
               st := 4#3 } := by
  have value : s.w.value = .ofNat 64 (valueOf s.w) := by
    rw [← Sentence.value_toNat, BitVec.ofNat_toNat, BitVec.setWidth_eq]
  rw [execDec_verified h, par2_eq_ofNat_parityOf, Sentence.value_toNat, value]

/-- Right after a successful DEC the block in D is the one the Sentence encodes, with the parity and the counts that
are there. -/
theorem execEnc_after_execDec {s t : State} (hw : checksOut s.w) (h : execDec s = .next t) :
    execEnc t = .next t := by
  cases (execDec_verified hw).symm.trans h
  rw [execEnc_cases, slice6_value_of_checksOut hw]

/-- Settles O34: the results of DEC by arithmetic, the reserved words next to it, and ENC right after it. -/
theorem decCommand : Obligations.DecCommand :=
  ⟨decode_encode (i := .dec) rfl, fun _ => execDec_by_arithmetic, fun _ => execDec_rejected,
    fun s _ h1 h15 => performCommand_nonzero_argument (op := 4) (by decide) h1 h15 s,
    by decide, by decide, by decide, by decide, by decide, by decide, by decide,
    fun _ _ => execEnc_after_execDec⟩

/-! ## A replaced slot (R96 item 2) -/

/-- Settles O37: a Sentence that verifies is `slice6` of its value, so the original value would be the original code. -/
theorem substitutedSlotNeverDecodesToTheOriginal : Obligations.SubstitutedSlotNeverDecodesToTheOriginal := by
  intro s v k c wrong hw
  by_cases h : checksOut s.w
  · refine .inr ⟨_, execDec_verified h, rfl, rfl, fun original => wrong ?_⟩
    change s.w.value = v at original
    calc c = ((slice6 v).set k c).get k := (Sentence.get_set_same _ k c).symm
      _ = (slice6 s.w.value).get k := by rw [← hw, slice6_value_of_checksOut h]
      _ = (slice6 v).get k := by rw [original]
  · exact .inl (execDec_rejected h)

/-! ## A flipped bit (R96 item 1) -/

/-- The Sentence with bit `j` of slot `k` flipped. -/
def Sentence.flipBit (w : Sentence) (k : Fin 6) (j : Nat) : Sentence := w.set k (w.get k ^^^ (1#11 <<< j))

theorem Sentence.value_getLsbD (w : Sentence) (i : Nat) : w.value.getLsbD i = w.bits.getLsbD (i + 2) := by
  rw [Sentence.bits_eq_value_append, BitVec.getLsbD_append, if_neg (by omega), Nat.add_sub_cancel]

theorem embedded_getLsbD (w : Sentence) {i : Nat} (hi : i < 2) :
    (merge6 w).embedded.getLsbD i = w.bits.getLsbD i := by
  rw [Sentence.bits_eq_value_append, BitVec.getLsbD_append, if_pos hi]

/-- Flipping bit `j` of slot `k` flips one of the 66 bits, at position `55 - 11k + j`, and no other. -/
theorem Sentence.flipBit_bits_getLsbD (w : Sentence) (k : Fin 6) {j : Nat} (hj : j < 11) {m : Nat} (hm : m < 66) :
    (w.flipBit k j).bits.getLsbD m = (w.bits.getLsbD m ^^ decide (55 - 11 * k.val + j = m)) := by
  obtain ⟨k', j', hj', rfl⟩ : ∃ k' : Fin 6, ∃ j' < 11, 55 - 11 * k'.val + j' = m :=
    ⟨⟨5 - m / 11, by omega⟩, m % 11, by omega, by simp only; omega⟩
  rw [← Sentence.get_getLsbD _ k' hj', ← Sentence.get_getLsbD _ k' hj', Sentence.flipBit]
  by_cases same : k' = k
  · subst same
    rw [Sentence.get_set_same, ← BitVec.twoPow_eq, BitVec.getLsbD_xor, BitVec.getLsbD_twoPow, decide_eq_true hj,
      Bool.true_and]
    congr 1
    exact decide_eq_decide.mpr (by omega)
  · have elsewhere : ¬ 55 - 11 * k.val + j = 55 - 11 * k'.val + j' := by omega
    rw [Sentence.get_set_other _ same, decide_eq_false elsewhere, Bool.xor_false]

/-- A flipped data bit is a flipped bit of the value; the embedded parity stays. -/
theorem merge6_flipBit_data (w : Sentence) {k : Fin 6} {j i : Nat} (hj : j < 11) (hi : 55 - 11 * k.val + j = i + 2) :
    (w.flipBit k j).value = w.value ^^^ (1#64 <<< i) ∧ (merge6 (w.flipBit k j)).embedded = (merge6 w).embedded := by
  constructor <;> apply BitVec.eq_of_getLsbD_eq <;> intro m hm
  · rw [flipBit_getLsbD _ (by omega), Sentence.value_getLsbD, Sentence.value_getLsbD,
      Sentence.flipBit_bits_getLsbD w k hj (by omega), hi]
    simp
  · rw [embedded_getLsbD _ hm, embedded_getLsbD _ hm, Sentence.flipBit_bits_getLsbD w k hj (by omega), hi,
      decide_eq_false (by omega), Bool.xor_false]

/-- A flipped parity bit is a flipped bit of the embedded parity; the value stays. -/
theorem merge6_flipBit_parity (w : Sentence) {k : Fin 6} {j : Nat} (hj : j < 11) (hi : 55 - 11 * k.val + j < 2) :
    (w.flipBit k j).value = w.value ∧
    (merge6 (w.flipBit k j)).embedded = (merge6 w).embedded ^^^ (1#2 <<< (55 - 11 * k.val + j)) := by
  constructor <;> apply BitVec.eq_of_getLsbD_eq <;> intro m hm
  · rw [Sentence.value_getLsbD, Sentence.value_getLsbD, Sentence.flipBit_bits_getLsbD w k hj (by omega),
      decide_eq_false (by omega), Bool.xor_false]
  · rw [embedded_getLsbD _ hm, Sentence.flipBit_bits_getLsbD w k hj (by omega), ← BitVec.twoPow_eq,
      BitVec.getLsbD_xor, BitVec.getLsbD_twoPow, decide_eq_true hi, Bool.true_and, embedded_getLsbD _ hm]

/-- A flipped bit moves the parity up or down by the weight of the bit in its digit. -/
theorem par2_flipBit (v : Block) {i : Nat} (hi : i < 64) :
    par2 (v ^^^ (1#64 <<< i)) = par2 v + 1#2 <<< (i % 2) ∨ par2 (v ^^^ (1#64 <<< i)) = par2 v - 1#2 <<< (i % 2) := by
  have change := par2_of_one_digit (i := i / 2) (by omega) fun j _ hj => (digit_flipBit_eq_iff v hi j).mpr hj
  rw [digit_eq_bits, digit_eq_bits, flipBit_getLsbD v hi, flipBit_getLsbD v hi] at change
  generalize par2 (v ^^^ (1#64 <<< i)) = p', par2 v = p, v.getLsbD (2 * (i / 2)) = low,
    v.getLsbD (2 * (i / 2) + 1) = high at change ⊢
  rcases Nat.mod_two_eq_zero_or_one i with even | odd
  · rw [decide_eq_true (by omega), decide_eq_false (by omega)] at change
    rw [even]
    revert p' p low high
    decide
  · rw [decide_eq_false (by omega), decide_eq_true (by omega)] at change
    rw [odd]
    revert p' p low high
    decide

/-- How far the embedded parity is from the computed one, modulo 4. -/
def Sentence.defect (w : Sentence) : Parity := (merge6 w).embedded - par2 w.value

theorem Sentence.defect_eq_zero_iff (w : Sentence) : w.defect = 0#2 ↔ checksOut w := by
  rw [← embedded_eq_computed_iff]
  exact sub_eq_zero

/-- A flipped bit, of the data or of the parity, moves the defect up or down by its weight in its digit. -/
theorem Sentence.defect_flipBit (w : Sentence) (k : Fin 6) {j : Nat} (hj : j < 11) :
    (w.flipBit k j).defect = w.defect + 1#2 <<< ((55 - 11 * k.val + j) % 2) ∨
    (w.flipBit k j).defect = w.defect - 1#2 <<< ((55 - 11 * k.val + j) % 2) := by
  by_cases data : 2 ≤ 55 - 11 * k.val + j
  · obtain ⟨i, hi⟩ := Nat.exists_eq_add_of_le' data
    obtain ⟨value, embedded⟩ := merge6_flipBit_data w hj hi
    have moved := par2_flipBit w.value (i := i) (by omega)
    rw [hi, Nat.add_mod_right, Sentence.defect, Sentence.defect, value, embedded]
    rcases moved with up | down
    · right
      rw [up, sub_add_eq_sub_sub]
    · left
      rw [down, sub_sub_eq_add_sub, sub_add_eq_add_sub]
  · obtain ⟨value, embedded⟩ := merge6_flipBit_parity w hj (Nat.lt_of_not_le data)
    have moved : ∀ (e c : Parity) (i : Fin 2), (e ^^^ 1#2 <<< i.val) - c = e - c + 1#2 <<< (i.val % 2) ∨
      (e ^^^ 1#2 <<< i.val) - c = e - c - 1#2 <<< (i.val % 2) := by decide
    rw [Sentence.defect, Sentence.defect, value, embedded]
    exact moved _ _ ⟨_, Nat.lt_of_not_le data⟩

theorem Sentence.defect_flipBit_low (w : Sentence) {k : Fin 6} {j : Nat} (hj : j < 11)
    (low : (55 - 11 * k.val + j) % 2 = 0) : (w.flipBit k j).defect.getLsbD 0 = !w.defect.getLsbD 0 := by
  have moved := w.defect_flipBit k hj
  rw [low] at moved
  generalize (w.flipBit k j).defect = d', w.defect = d at moved ⊢
  revert d d'
  decide

theorem Sentence.defect_flipBit_high (w : Sentence) {k : Fin 6} {j : Nat} (hj : j < 11)
    (high : (55 - 11 * k.val + j) % 2 = 1) : (w.flipBit k j).defect = w.defect + 2#2 := by
  have moved := w.defect_flipBit k hj
  rw [high] at moved
  generalize (w.flipBit k j).defect = d', w.defect = d at moved ⊢
  revert d d'
  decide

/-- Settles O36: the defect of `slice6 v` is 0; a flipped bit makes it odd, or 2. -/
theorem singleBitErrorsAreDetected : Obligations.SingleBitErrorsAreDetected := by
  intro s v k j hj (hw : s.w = (slice6 v).flipBit k j)
  refine execDec_rejected fun verified => ?_
  rw [hw] at verified
  have before := (Sentence.defect_eq_zero_iff _).mpr (checksOut_slice6 v)
  have after := (Sentence.defect_eq_zero_iff _).mpr verified
  rcases Nat.mod_two_eq_zero_or_one (55 - 11 * k.val + j) with low | high
  · have switched := (slice6 v).defect_flipBit_low hj low
    rw [after, before] at switched
    exact absurd switched (by decide)
  · have moved := (slice6 v).defect_flipBit_high hj high
    rw [after, before] at moved
    exact absurd moved (by decide)

/-! ## Counting the codes that verify (R96 item 3) -/

/-- The 2048 codes, in order. -/
def allCodes : List Code := (List.range 2048).map (BitVec.ofNat 11)

theorem nodup_allCodes : allCodes.Nodup := by
  refine (List.nodup_map_iff_inj_on List.nodup_range).mpr fun a ha b hb same => ?_
  have := congrArg BitVec.toNat same
  rw [List.mem_range] at ha hb
  simp only [BitVec.toNat_ofNat] at this
  omega

theorem mem_allCodes (c : Code) : c ∈ allCodes :=
  List.mem_map.mpr ⟨c.toNat, List.mem_range.mpr c.isLt, by rw [BitVec.ofNat_toNat, BitVec.setWidth_eq]⟩

/-- Flipping a bit permutes the codes. -/
theorem map_flip_allCodes_perm (mask : Code) : (allCodes.map (· ^^^ mask)).Perm allCodes := by
  have undo : Function.Involutive fun c : Code => c ^^^ mask := fun c => by
    simp only [BitVec.xor_assoc, BitVec.xor_self, BitVec.xor_zero]
  refine (List.perm_ext_iff_of_nodup (nodup_allCodes.map undo.injective) nodup_allCodes).mpr fun c => ?_
  exact ⟨fun _ => mem_allCodes c, fun _ => List.mem_map.mpr ⟨c ^^^ mask, mem_allCodes _, undo c⟩⟩

/-- If some permutation of a list keeps `p` and switches `q` where `p` holds, then `q` holds of half the places where
`p` does. -/
theorem two_mul_countP_of_switch {α : Type} {l : List α} {σ : α → α} (perm : (l.map σ).Perm l) {p q : α → Bool}
    (keeps : ∀ a, p (σ a) = p a) (switches : ∀ a, p a = true → q (σ a) = !q a) :
    2 * l.countP (fun a => q a && p a) = l.countP p := by
  have other : l.countP (fun a => q a && p a) = l.countP (fun a => !q a && p a) := by
    rw [← perm.countP_eq, List.countP_map]
    congr 1
    funext a
    cases h : p a <;> simp [keeps, h, switches]
  have split := List.countP_eq_countP_filter_add l p q
  simp only [List.countP_filter] at split
  simp only [Bool.and_comm (q _), Bool.and_comm (!q _)] at other split ⊢
  omega

theorem countP_allCodes_of_switch (mask : Code) {q : Code → Bool} (switches : ∀ c, q (c ^^^ mask) = !q c) :
    allCodes.countP q = 1024 := by
  have total : allCodes.length = 2048 := by rw [allCodes, List.length_map, List.length_range]
  have half : 2 * allCodes.countP q = 2048 := by
    simpa [total] using two_mul_countP_of_switch (map_flip_allCodes_perm mask) (p := fun _ => true) (fun _ => rfl)
      fun c _ => switches c
  omega

theorem Sentence.flipBit_set (w : Sentence) (k : Fin 6) (c : Code) (j : Nat) :
    (w.set k c).flipBit k j = w.set k (c ^^^ (1#11 <<< j)) := by
  fin_cases k <;> rfl

/-- Each slot holds a bit of weight 1: flipping it switches between an even and an odd defect. -/
theorem countP_even_defect (w : Sentence) (k : Fin 6) :
    allCodes.countP (fun c => !(w.set k c).defect.getLsbD 0) = 1024 :=
  countP_allCodes_of_switch (1#11 <<< ((k.val + 1) % 2)) fun c => by
    rw [← Sentence.flipBit_set, Sentence.defect_flipBit_low _ (by omega) (by omega)]

/-- Each slot holds a bit of weight 2: flipping it switches an even defect between 0 and 2. So with the other slots
fixed a quarter of the codes verify. -/
theorem countP_verifies (w : Sentence) (k : Fin 6) : allCodes.countP (fun c => (w.set k c).verifies) = 512 := by
  have moved (c : Code) : (w.set k (c ^^^ (1#11 <<< (k.val % 2)))).defect = (w.set k c).defect + 2#2 := by
    rw [← Sentence.flipBit_set, Sentence.defect_flipBit_high _ (by omega) (by omega)]
  have keeps : ∀ d : Parity, (!(d + 2#2).getLsbD 0) = !d.getLsbD 0 := by decide
  have switches : ∀ d : Parity, (!d.getLsbD 0) = true → (d + 2#2 == 0#2) = !(d == 0#2) := by decide
  have zero_is_even : ∀ d : Parity, (d == 0#2 && !d.getLsbD 0) = (d == 0#2) := by decide
  have half := two_mul_countP_of_switch (map_flip_allCodes_perm (1#11 <<< (k.val % 2)))
    (p := fun c => !(w.set k c).defect.getLsbD 0) (q := fun c => (w.set k c).defect == 0#2)
    (fun c => by rw [moved, keeps]) (fun c even => by rw [moved, switches _ even])
  have verifying (c : Code) : (w.set k c).verifies = ((w.set k c).defect == 0#2) := by
    rw [Bool.eq_iff_iff, Sentence.verifies_iff, ← Sentence.defect_eq_zero_iff, beq_iff_eq]
  simp only [zero_is_even, countP_even_defect] at half
  simp only [verifying]
  omega

/-- Settles O38: of all 2048 codes 512 verify, and the right one, which is not counted, is one of them. -/
theorem substitutionEscapeCount : Obligations.SubstitutionEscapeCount := by
  intro v k
  have right : ((slice6 v).set k ((slice6 v).get k)).verifies = true := by
    rw [Sentence.set_get, Sentence.verifies_iff]
    exact checksOut_slice6 v
  have wrong : (allCodes.filter fun c => c != (slice6 v).get k) = allCodes.erase ((slice6 v).get k) :=
    (nodup_allCodes.erase_eq_filter _).symm
  have all : (allCodes.erase ((slice6 v).get k)).length = 2047 := by
    rw [List.length_erase_of_mem (mem_allCodes _), allCodes, List.length_map, List.length_range]
  have escaping : (allCodes.erase ((slice6 v).get k)).countP (fun c => ((slice6 v).set k c).verifies) = 511 := by
    rw [List.countP_erase, countP_verifies, if_pos ⟨mem_allCodes _, right⟩]
  have split := List.length_eq_countP_add_countP (fun c => ((slice6 v).set k c).verifies)
    (l := allCodes.erase ((slice6 v).get k))
  simp only [Bool.not_eq_true, Bool.decide_eq_false] at split
  change (allCodes.filter _).length = _ ∧ ((allCodes.filter _).filter _).length = _ ∧
    ((allCodes.filter _).filter _).length = _
  rw [wrong, ← List.countP_eq_length_filter, ← List.countP_eq_length_filter]
  omega

end Sys2Proof.Machine

/-! # Padding (43_padding.md): proofs of the family's obligations -/

namespace Sys2Proof.Machine

/-! ## Zero-extension (R100) -/

theorem zextBlock_eq_keptBytes (v : Block) (n : Nat) : zextBlock v n = keptBytes v n := by
  rw [keptBytes, ← zextBlock_toNat, BitVec.ofNat_toNat, BitVec.setWidth_eq]

theorem keptBytes_toNat (v : Block) (n : Nat) :
    (keptBytes v n).toNat = v.toNat / 2 ^ (8 * (8 - n)) * 2 ^ (8 * (8 - n)) := by
  rw [← zextBlock_eq_keptBytes, zextBlock_toNat]

/-- Bit `j` of lane `i` is bit `56 - 8i + j` of the block, which stands above the cleared bits exactly when `i < n`. -/
theorem lane_zextBlock (v : Block) (n : Nat) {i : Nat} (hi : i < 8) :
    lane (zextBlock v n) i = if i < n then lane v i else 0#8 := by
  apply BitVec.eq_of_getLsbD_eq
  intro j hj
  rw [lane, BitVec.getLsbD_extractLsb', zextBlock_getLsbD]
  split_ifs with kept
  · have above : 8 * (8 - n) ≤ 56 - 8 * i + j := by omega
    rw [lane, BitVec.getLsbD_extractLsb', decide_eq_true above, Bool.and_true]
  · have cleared : ¬ 8 * (8 - n) ≤ 56 - 8 * i + j := by omega
    rw [decide_eq_false cleared, Bool.and_false, Bool.and_false, BitVec.getLsbD_zero]

/-- A block whose low lanes are zero already is not changed. -/
theorem keptBytes_eq_self {v : Block} {n : Nat} (h : v.toNat % 2 ^ (8 * (8 - n)) = 0) : keptBytes v n = v := by
  apply BitVec.eq_of_toNat_eq
  rw [keptBytes_toNat, Nat.div_mul_cancel (Nat.dvd_of_mod_eq_zero h)]

theorem zextBlock_eight (v : Block) : zextBlock v 8 = v := by
  rw [zextBlock_eq_keptBytes, keptBytes_eq_self (Nat.mod_one _)]

/-- Settles O39: by lane and by division from the bits, and row by row of the mask table. -/
theorem zeroExtensionKeepsTheFirstLanes : Obligations.ZeroExtensionKeepsTheFirstLanes := by
  refine fun v n h1 h8 => ⟨fun i hi => lane_zextBlock v n hi, zextBlock_eq_keptBytes v n, ?_⟩
  interval_cases n <;> rfl

/-! ## ENCP (R103-R105) -/

/-- The word of a format I command, as a number (30_encoding.md R51). -/
theorem append_ofNat_eq_ofNat (op : BitVec 4) {n : Nat} (hn : n < 16) :
    op ++ BitVec.ofNat 4 n = BitVec.ofNat 8 (16 * op.toNat + n) := by
  have hop := op.isLt
  apply BitVec.eq_of_toNat_eq
  rw [BitVec.toNat_append, ← Nat.shiftLeft_add_eq_or_of_lt (BitVec.ofNat 4 n).isLt, Nat.shiftLeft_eq,
    BitVec.toNat_ofNat, BitVec.toNat_ofNat]
  omega

theorem decode_encp_word {n : Nat} (hn : n < 16) : decode (.ofNat 8 (0x30 + n)) = .ok (.encp n) :=
  append_ofNat_eq_ofNat 0x3#4 hn ▸ decode_encode (i := .encp n) (decide_eq_true hn)

theorem decode_decp_word {p : Nat} (hp : p < 16) : decode (.ofNat 8 (0x50 + p)) = .ok (.decp p) :=
  append_ofNat_eq_ofNat 0x5#4 hp ▸ decode_encode (i := .decp p) (decide_eq_true hp)

theorem execEncp_by_division {n : Nat} (h1 : 1 ≤ n) (h8 : n ≤ 8) (s : State) :
    execEncp n s = .next
      { s with d := keptBytes s.d n, w := codesOf (keptBytes s.d n),
               q := .ofNat 2 (parityOf (keptBytes s.d n).toNat), pad := .ofNat 3 (8 - n), cnt := .ofNat 4 n,
               st := 4#3 } := by
  rw [execEncp_accepted h1 h8, zextBlock_eq_keptBytes, slice6_eq_codesOf, par2_eq_ofNat_parityOf]

/-- Settles O41: these are the immediates that are not legal. -/
theorem encpOutOfRange : Obligations.EncpOutOfRange := by
  intro s n outside
  have illegal : encpLegal n = false := by
    rw [Bool.eq_false_iff, ne_eq, encpLegal_iff]
    omega
  exact execEncp_refused illegal s

/-- Settles O42: with all eight lanes kept, D is rewritten with its own value. -/
theorem encpEightIsEnc : Obligations.EncpEightIsEnc := by
  refine fun s => ⟨zextBlock_eight s.d, ?_⟩
  rw [exec_encp, exec_enc, execEncp_accepted (by decide) le_rfl, execEnc_cases, zextBlock_eight]

/-! ### The last codes of a short block (R103, corner cases) -/

theorem codesOf_w4_toNat (v : Block) : (codesOf v).w4.toNat = v.toNat / 2 ^ 9 % 2048 := by
  obtain ⟨_, _, _, _, h4, _⟩ := slice6_toNat v
  rw [← slice6_eq_codesOf, h4]

theorem codesOf_w5_toNat (v : Block) : (codesOf v).w5.toNat = v.toNat % 512 * 4 + parityOf v.toNat := by
  obtain ⟨_, _, _, _, _, h5⟩ := slice6_toNat v
  rw [← slice6_eq_codesOf, h5, par2_toNat_eq_parityOf]

/-- Every bit below the kept lanes is zero. -/
theorem keptBytes_low_bits (v : Block) {n k : Nat} (hk : k ≤ 8 * (8 - n)) : (keptBytes v n).toNat % 2 ^ k = 0 := by
  rw [keptBytes_toNat]
  exact Nat.mod_eq_zero_of_dvd ((pow_dvd_pow 2 hk).mul_left _)

theorem codesOf_keptBytes_w5 (v : Block) {n : Nat} (hn : n ≤ 6) :
    (codesOf (keptBytes v n)).w5.toNat = parityOf (keptBytes v n).toNat := by
  have data9 : (keptBytes v n).toNat % 512 = 0 := keptBytes_low_bits v (k := 9) (by omega)
  rw [codesOf_w5_toNat, data9, zero_mul, zero_add]

/-- Of the seventh byte only the lowest bit falls into the sixth code. -/
theorem codesOf_keptBytes_seven_w5 (v : Block) :
    (codesOf (keptBytes v 7)).w5.toNat / 4 = v.toNat / 256 % 2 * 256 := by
  have two_bits : parityOf (keptBytes v 7).toNat < 4 := Nat.mod_lt _ (by decide)
  have kept : (keptBytes v 7).toNat = v.toNat / 256 * 256 := keptBytes_toNat v 7
  rw [codesOf_w5_toNat]
  omega

theorem codesOf_keptBytes_six_w4 (v : Block) : (codesOf (keptBytes v 6)).w4.toNat % 128 = 0 := by
  have low : (keptBytes v 6).toNat % 2 ^ 16 = 0 := keptBytes_low_bits v le_rfl
  rw [codesOf_w4_toNat]
  omega

theorem codesOf_keptBytes_w4 (v : Block) {n : Nat} (hn : n ≤ 5) : (codesOf (keptBytes v n)).w4 = 0#11 := by
  have low : (keptBytes v n).toNat % 2 ^ 20 = 0 := keptBytes_low_bits v (by omega)
  apply BitVec.eq_of_toNat_eq
  rw [codesOf_w4_toNat, BitVec.toNat_ofNat]
  omega

/-- The source's third vector: the six bytes 00 00 00 66 6F 6F, whatever stands behind them in D. -/
theorem execEncp_third_vector {s : State} (hd : s.d = 0x000000666F6FDEAD#64) :
    execEncp 6 s = .next
      { s with d := 0x000000666F6F0000#64, w := ⟨0x000#11, 0x000#11, 0x0CC#11, 0x6F6#11, 0x780#11, 0x000#11⟩, q := 0#2,
               pad := 2#3, cnt := 6#4, st := 4#3 } := by
  have block : zextBlock s.d 6 = 0x000000666F6F0000#64 := by rw [hd]; rfl
  have codes : slice6 0x000000666F6F0000#64 = ⟨0x000#11, 0x000#11, 0x0CC#11, 0x6F6#11, 0x780#11, 0x000#11⟩ := by decide
  have parity : par2 0x000000666F6F0000#64 = 0#2 := by decide
  rw [execEncp_accepted (by decide) (by decide), block, codes, parity]

/-- Settles O40: the results of ENCP by division, and what the zero lanes leave of the last two codes. -/
theorem encpCommand : Obligations.EncpCommand := by
  refine ⟨fun s n h1 h8 => ⟨decode_encp_word (by omega), execEncp_by_division h1 h8 s, keptBytes_eq_self,
    fun zero => ?_, codesOf_keptBytes_w5 s.d, ?_, ?_, codesOf_keptBytes_w4 s.d⟩, encpOutOfRange,
    fun _ => execEncp_third_vector⟩
  · rw [zero]
    decide
  · rintro rfl
    exact codesOf_keptBytes_seven_w5 s.d
  · rintro rfl
    exact codesOf_keptBytes_six_w4 s.d

/-! ## DECP (R106-R108, R110) -/

theorem Sentence.value_ushiftRight (w : Sentence) (k : Nat) : w.value >>> k = .ofNat 64 (valueOf w / 2 ^ k) := by
  rw [← Sentence.value_toNat, ← Nat.shiftRight_eq_div_pow, ← BitVec.toNat_ushiftRight, BitVec.ofNat_toNat,
    BitVec.setWidth_eq]

theorem execDecp_by_arithmetic {p : Nat} (hp : p ≤ 7) {s : State} (h : checksOut s.w) :
    execDecp p s = .next
      { s with d := .ofNat 64 (valueOf s.w / 2 ^ (8 * p)), q := .ofNat 2 (parityOf (valueOf s.w)), pad := .ofNat 3 p,
               cnt := .ofNat 4 (8 - p), st := 4#3 } := by
  rw [execDecp_verified hp h, Sentence.value_ushiftRight, par2_eq_ofNat_parityOf, Sentence.value_toNat]

/-- Discarding zero bytes keeps the parity of the value (40_parity.md R73 law 5). -/
theorem parityOf_discarded_zeros {w : Sentence} {p : Nat} (hp : p ≤ 7) (h : valueOf w % 2 ^ (8 * p) = 0) :
    parityOf (valueOf w / 2 ^ (8 * p)) = parityOf (valueOf w) := by
  obtain ⟨_, _, bytes, _⟩ := parityUnderDigitShifts
  rw [← Sentence.value_toNat] at h ⊢
  rw [← Nat.shiftRight_eq_div_pow, ← BitVec.toNat_ushiftRight, ← par2_toNat_eq_parityOf, ← par2_toNat_eq_parityOf,
    bytes _ _ hp h]

/-- Settles O44: these are the immediates that are not legal, and the range is checked first. -/
theorem decpOutOfRange : Obligations.DecpOutOfRange := by
  intro s p outside
  have illegal : decpLegal p = false := by
    rw [Bool.eq_false_iff, ne_eq, decpLegal_iff]
    omega
  exact execDecp_refused illegal s

/-- Settles O45: both verify the same value, and DECP 0 shifts it by 0. -/
theorem decpZeroIsDec : Obligations.DecpZeroIsDec := by
  intro s
  rw [exec_decp, exec_dec]
  by_cases h : checksOut s.w
  · rw [execDecp_verified (Nat.zero_le 7) h, execDec_verified h, Nat.mul_zero, BitVec.ushiftRight_zero]
  · rw [execDecp_rejected rfl h, execDec_rejected h]

/-- The source's third vector, back to its six bytes. -/
theorem execDecp_third_vector {s : State}
    (hw : s.w = ⟨0x000#11, 0x000#11, 0x0CC#11, 0x6F6#11, 0x780#11, 0x000#11⟩) :
    execDecp 2 s = .next { s with d := 0x0000000000666F6F#64, q := 0#2, pad := 2#3, cnt := 6#4, st := 4#3 } := by
  have verified : checksOut s.w := by rw [hw]; decide
  have value : s.w.value = 0x000000666F6F0000#64 := by rw [hw]; rfl
  have parity : par2 0x000000666F6F0000#64 = 0#2 := by decide
  rw [execDecp_verified (by decide) verified, value, parity]
  rfl

/-- Settles O43: the immediate is looked at for its range, then only after the Sentence has been verified. -/
theorem decpCommand : Obligations.DecpCommand :=
  ⟨fun _ _ hp => ⟨decode_decp_word (by omega), execDecp_by_arithmetic hp,
      execDecp_rejected ((decpLegal_iff _).mpr hp), parityOf_discarded_zeros hp⟩,
    decpOutOfRange, fun _ => execDecp_third_vector⟩

/-! ## ENCP and then DECP (R109, R111) -/

/-- The Sentence ENCP leaves verifies and its value is the zero-extended block, so DECP succeeds with any legal `p`. -/
theorem execDecp_after_execEncp {n p : Nat} (h1 : 1 ≤ n) (h8 : n ≤ 8) (hp : p ≤ 7) {s t : State}
    (h : execEncp n s = .next t) :
    execDecp p t = .next { t with d := zextBlock s.d n >>> (8 * p), pad := .ofNat 3 p, cnt := .ofNat 4 (8 - p) } := by
  cases (execEncp_accepted h1 h8 s).symm.trans h
  rw [execDecp_verified hp (checksOut_slice6 _), slice6_value]

/-- W = 0, 0, 0, 0, 0, 5 is the value 1: DECP 1 discards its only 1 bit. -/
theorem execDecp_discards_nonzero {s : State} (hw : s.w = ⟨0#11, 0#11, 0#11, 0#11, 0#11, 5#11⟩) :
    execDecp 1 s = .next { s with d := 0#64, q := 1#2, pad := 1#3, cnt := 7#4, st := 4#3 } := by
  have verified : checksOut s.w := by rw [hw]; decide
  have value : s.w.value = 1#64 := by rw [hw]; rfl
  have parity : par2 1#64 = 1#2 := by decide
  rw [execDecp_verified (by decide) verified, value, parity]
  rfl

/-- Settles O47: verification looks at the whole value and at nothing else. -/
theorem discardedBytesAreNotExamined : Obligations.DiscardedBytesAreNotExamined :=
  ⟨fun _ _ _ _ h1 h8 hp => execDecp_after_execEncp h1 h8 hp, fun _ => execDecp_discards_nonzero⟩

/-- The shift that unpads drops exactly the bits that zero-extension cleared. -/
theorem zextBlock_ushiftRight (v : Block) (n : Nat) :
    zextBlock v n >>> (8 * (8 - n)) = v >>> (8 * (8 - n)) := by
  apply BitVec.eq_of_toNat_eq
  rw [BitVec.toNat_ushiftRight, BitVec.toNat_ushiftRight, zextBlock_toNat, Nat.shiftRight_eq_div_pow,
    Nat.shiftRight_eq_div_pow, Nat.mul_div_cancel _ (by positivity)]

/-- Only 0 is not changed by a right shift. -/
theorem eq_zero_of_ushiftRight_eq_self {v : Block} {k : Nat} (hk : k ≠ 0) (h : v >>> k = v) : v = 0#64 := by
  have divided : v.toNat / 2 ^ k = v.toNat := by
    rw [← Nat.shiftRight_eq_div_pow, ← BitVec.toNat_ushiftRight, h]
  rcases Nat.div_eq_self.mp divided with zero | one
  · exact BitVec.eq_of_toNat_eq zero
  · exact absurd one (Nat.one_lt_two_pow hk).ne'

/-- A command issued by the host is performed, whatever stands behind it, and the run goes on with the accesses
behind it. -/
theorem run_issue {i : Instr} (hi : i.wellFormed = true) {s t : State} (h : exec i s = .next t)
    (rest : List HostAction) (k : Nat) :
    Sys2Proof.core.run (k + 1) { s with pending := issue i :: rest } =
      Sys2Proof.core.run k { t with pending := rest } := by
  obtain ⟨t', ht', _, _, performs⟩ := exec_next i s
  cases ht'.symm.trans h
  have step_takes_i : step { s with pending := issue i :: rest } = .next { t with pending := rest } :=
    (step_cons rfl).trans ((perform_issue (decode_encode hi) _).trans (performs rest))
  exact run_succ step_takes_i k

/-- Settles O46: the two commands one after the other; unpadding shifts out the zero lanes, and only 0 is its own
shift. -/
theorem paddedCommandsRoundTrip : Obligations.PaddedCommandsRoundTrip := by
  intro s n rest h1 h8
  have encp_fits : (Instr.encp n).wellFormed = true := decide_eq_true (by omega : n < 16)
  have decp_fits : (Instr.decp (8 - n)).wellFormed = true := decide_eq_true (by omega : 8 - n < 16)
  have encoded := execEncp_accepted h1 h8 s
  have decoded := execDecp_after_execEncp h1 h8 (p := 8 - n) (by omega) encoded
  rw [zextBlock_ushiftRight, Nat.sub_sub_self h8] at decoded
  have first := run_issue encp_fits encoded (issue (.decp (8 - n)) :: rest)
  refine ⟨_, _, first 0, rfl, (first 1).trans (run_issue decp_fits decoded rest 0), rfl, fun same => ?_, ?_⟩
  · by_cases full : n = 8
    · exact .inl full
    · exact .inr (eq_zero_of_ushiftRight_eq_self (by omega) same)
  · rintro rfl
    exact BitVec.ushiftRight_zero s.d

end Sys2Proof.Machine

/-! # The host (44_host_driver.md): proofs of the family's obligations -/

namespace Sys2Proof.Machine

/-! ## The two lookups (R115, R116) -/

theorem Dictionary.codeOf_eq_none {dict : Dictionary} {word : Token} (h : ∀ c, dict.wordOf c ≠ word) :
    dict.codeOf word = none := by
  rw [Dictionary.codeOf, Option.map_eq_none_iff, List.find?_eq_none]
  exact fun k _ found => h _ (beq_iff_eq.mp found)

theorem lookupByWord_long (dict : Dictionary) {token : Token} (h : 5 ≤ token.length) :
    lookupByWord dict token = .error .invalidWord := if_pos h

theorem lookupByWord_unknown {dict : Dictionary} {token : Token} (h1 : 1 ≤ token.length) (h4 : token.length ≤ 4)
    (absent : ∀ c, dict.wordOf c ≠ token.map Char.toUpper) : lookupByWord dict token = .error .unknownWord := by
  have short : ¬ 5 ≤ token.length := by omega
  have nonempty : token.length ≠ 0 := by omega
  simp only [lookupByWord, if_neg short, Dictionary.codeOf_eq_none absent, if_neg nonempty]

/-- A word of the dictionary is found in any case: upper-casing keeps the length. -/
theorem lookupByWord_known {dict : Dictionary} (hd : dict.Lawful) {token : Token} {c : Code}
    (h : dict.wordOf c = token.map Char.toUpper) : lookupByWord dict token = .ok c := by
  have short : ¬ 5 ≤ token.length := by
    have := hd.short c
    rw [h, List.length_map] at this
    omega
  simp only [lookupByWord, if_neg short, ← h, hd.codeOf_wordOf]

theorem lookupByWord_wordOf {dict : Dictionary} (hd : dict.Lawful) (c : Code) :
    lookupByWord dict (dict.wordOf c) = .ok c :=
  lookupByWord_known hd (hd.map_toUpper c).symm

theorem lookupSix_wordOf {dict : Dictionary} (hd : dict.Lawful) (w : Sentence) :
    lookupSix dict (dict.wordOf w.w0) (dict.wordOf w.w1) (dict.wordOf w.w2) (dict.wordOf w.w3) (dict.wordOf w.w4)
      (dict.wordOf w.w5) = .ok w := by
  simp only [lookupSix, lookupByWord_wordOf hd]

/-! ## The padding marker (R118, R119) -/

theorem markerChar_toNat : ∀ pad : BitVec 3, (Char.ofNat (0x30 + pad.toNat)).toNat = 0x30 + pad.toNat := by decide

theorem not_markerChar_of_not_digit {ch : Char} (h : ch.isDigit = false) : ¬ (0x31 ≤ ch.toNat ∧ ch.toNat ≤ 0x37) := by
  rintro ⟨low, high⟩
  have digit : ch.isDigit = true := by
    simp only [Char.isDigit, Bool.and_eq_true, decide_eq_true_eq, ge_iff_le, UInt32.le_iff_toNat_le]
    exact ⟨Nat.le_trans (by decide) low, Nat.le_trans high (by decide)⟩
  simp [h] at digit

/-- The marker comes off again, and nothing else does: a word never ends in a digit of its own (R117). -/
theorem stripMarker_appendMarker {dict : Dictionary} (hd : dict.Lawful) (pad : BitVec 3) (c : Code) :
    stripMarker (appendMarker pad (dict.wordOf c)) = (dict.wordOf c, pad.toNat) := by
  by_cases unmarked : pad = 0#3
  · rw [appendMarker, if_pos unmarked, unmarked, stripMarker]
    cases last : (dict.wordOf c).getLast? with
    | none => rfl
    | some ch => exact if_neg (not_markerChar_of_not_digit (hd.noDigitLast c ch last))
  · have marker : 0x31 ≤ 0x30 + pad.toNat ∧ 0x30 + pad.toNat ≤ 0x37 := by
      have := pad.isLt
      have : pad.toNat ≠ 0 := fun zero => unmarked (BitVec.eq_of_toNat_eq zero)
      omega
    rw [appendMarker, if_neg unmarked]
    simp only [stripMarker, List.getLast?_concat, markerChar_toNat, if_pos marker, List.dropLast_concat,
      Nat.add_sub_cancel_left]

/-! ## The bytes of one block (R121, R124) -/

/-- After unpadding, the recovered bytes are the first lanes. -/
theorem recoveredByte_unpadded (v : Block) {n j : Nat} (hn : n ≤ 8) (hj : j < n) :
    recoveredByte (v >>> (8 * (8 - n))) n j = lane v j := by
  apply BitVec.eq_of_getLsbD_eq
  intro i hi
  have bit : 8 * (8 - n) + (8 * (n - j - 1) + i) = 56 - 8 * j + i := by omega
  rw [recoveredByte, lane, BitVec.getLsbD_extractLsb', BitVec.getLsbD_extractLsb', BitVec.getLsbD_ushiftRight, bit]

theorem recoveredBytes_packLanes {bytes : List Byte} (h : bytes.length ≤ 8) :
    recoveredBytes (packLanes 0 bytes >>> (8 * (8 - bytes.length))) bytes.length = bytes := by
  apply List.ext_getElem
  · simp [recoveredBytes]
  · intro j _ hj
    have packed := lane_packLanes bytes 0 j (by omega) (by omega) (Nat.zero_le j)
    simp only [recoveredBytes, List.getElem_map, List.getElem_range, recoveredByte_unpadded _ h hj, packed,
      Nat.sub_zero, List.getElem?_eq_getElem hj, Option.getD_some]

/-! ## One block through the machine and back (R126) -/

/-- The codes of a block of 1 to 8 bytes: those of the bytes in the first lanes, the other lanes zero. -/
def blockCodes (bytes : List Byte) : Sentence := slice6 (zextBlock (packLanes 0 bytes) bytes.length)

/-- The tokens of a block of 1 to 8 bytes, the sixth with its marker. -/
def blockTokens (dict : Dictionary) (bytes : List Byte) : List Token :=
  [dict.wordOf (blockCodes bytes).w0, dict.wordOf (blockCodes bytes).w1, dict.wordOf (blockCodes bytes).w2,
   dict.wordOf (blockCodes bytes).w3, dict.wordOf (blockCodes bytes).w4,
   appendMarker (.ofNat 3 (8 - bytes.length)) (dict.wordOf (blockCodes bytes).w5)]

theorem blockTokens_length (dict : Dictionary) (bytes : List Byte) : (blockTokens dict bytes).length = 6 := rfl

theorem blockCodes_checksOut (bytes : List Byte) : checksOut (blockCodes bytes) := checksOut_slice6 _

/-- Unpadding the value of the codes gives the packed bytes unpadded: the cleared lanes are shifted out. -/
theorem blockCodes_unpadded (bytes : List Byte) :
    (blockCodes bytes).value >>> (8 * (8 - bytes.length)) = packLanes 0 bytes >>> (8 * (8 - bytes.length)) := by
  rw [blockCodes, slice6_value, zextBlock_ushiftRight]

theorem encodeBlock_eq (dict : Dictionary) {bytes : List Byte} (h1 : 1 ≤ bytes.length) (h8 : bytes.length ≤ 8)
    (s : State) : ∃ t, encodeBlock dict bytes s = .ok (blockTokens dict bytes, t) := by
  obtain ⟨t, ht⟩ := transact_encode (packLanes 0 bytes) h1 h8 s
  have narrow : ∀ {w : Nat} (_ : w ≤ 64) (x : BitVec w), (x.setWidth 64).setWidth w = x := fun hw x => by
    rw [BitVec.setWidth_setWidth_of_le x hw, BitVec.setWidth_eq]
  refine ⟨t, ?_⟩
  simp only [encodeBlock, ht, if_true, narrow (by decide : 11 ≤ 64), narrow (by decide : 3 ≤ 64)]
  rfl

/-- A Sentence looked at without a marker issues DEC; one that verifies gives the 8 bytes of its value. -/
theorem decodeSentence_unmarked {dict : Dictionary} {t0 t1 t2 t3 t4 t5 : Token} {codes : Sentence}
    (h : lookupSix dict t0 t1 t2 t3 t4 t5 = .ok codes) (hc : checksOut codes) (s : State) :
    ∃ t, decodeSentence dict [t0, t1, t2, t3, t4, t5] false s = .ok (recoveredBytes codes.value 8, t) := by
  obtain ⟨_, t, ht⟩ := transact_decode_verified hc (Nat.zero_le 7) s
  exact ⟨t, by simp [decodeSentence, h, ht]⟩

/-- A Sentence whose marker is looked for issues DECP; one that verifies gives the bytes before the padding. -/
theorem decodeSentence_marked {dict : Dictionary} {t0 t1 t2 t3 t4 t5 t5' : Token} {p : Nat} {codes : Sentence}
    (stripped : stripMarker t5 = (t5', p)) (hp : p ≤ 7) (h : lookupSix dict t0 t1 t2 t3 t4 t5' = .ok codes)
    (hc : checksOut codes) (s : State) :
    ∃ t, decodeSentence dict [t0, t1, t2, t3, t4, t5] true s =
      .ok (recoveredBytes (codes.value >>> (8 * p)) (8 - p), t) := by
  obtain ⟨⟨t, ht⟩, _⟩ := transact_decode_verified hc hp s
  have count : ((BitVec.ofNat 4 (8 - p)).setWidth 64).toNat = 8 - p := by
    rw [BitVec.toNat_setWidth, BitVec.toNat_ofNat]
    omega
  refine ⟨t, ?_⟩
  simp only [decodeSentence, if_true, stripped, h, ht, count]
  rfl

/-- The tokens of a block decode to its bytes; only a short block needs its marker looked for. -/
theorem decodeSentence_blockTokens {dict : Dictionary} (hd : dict.Lawful) {bytes : List Byte} {marked : Bool}
    (h1 : 1 ≤ bytes.length) (h8 : bytes.length ≤ 8) (full : marked = false → bytes.length = 8) (s : State) :
    ∃ t, decodeSentence dict (blockTokens dict bytes) marked s = .ok (bytes, t) := by
  have codes := lookupSix_wordOf hd (blockCodes bytes)
  have checks := blockCodes_checksOut bytes
  have unpadded := blockCodes_unpadded bytes
  have recovered := recoveredBytes_packLanes h8
  cases marked with
  | false =>
    have eight : bytes.length = 8 := full rfl
    obtain ⟨t, ht⟩ := decodeSentence_unmarked codes checks s
    simp only [eight, Nat.sub_self, Nat.mul_zero, BitVec.ushiftRight_zero] at unpadded recovered
    rw [unpadded, recovered] at ht
    refine ⟨t, ?_⟩
    simpa [blockTokens, eight, appendMarker] using ht
  | true =>
    have pad : (BitVec.ofNat 3 (8 - bytes.length)).toNat = 8 - bytes.length :=
      (BitVec.toNat_ofNat ..).trans (Nat.mod_eq_of_lt (by omega))
    have stripped := stripMarker_appendMarker hd (.ofNat 3 (8 - bytes.length)) (blockCodes bytes).w5
    rw [pad] at stripped
    obtain ⟨t, ht⟩ := decodeSentence_marked stripped (by omega) codes checks s
    rw [unpadded, Nat.sub_sub_self h8, recovered] at ht
    exact ⟨t, ht⟩

/-! ## Groups (R121, R123) -/

/-- Induction along the groups of `k`: nothing, a last group that is short, or a whole group and what follows. -/
theorem groups_induction {α : Type} {k : Nat} (hk : 0 < k) {P : List α → Prop} (nil : P [])
    (short : ∀ group, 1 ≤ group.length → group.length < k → P group)
    (append : ∀ group rest, group.length = k → P rest → P (group ++ rest)) (xs : List α) : P xs := by
  induction h : xs.length using Nat.strong_induction_on generalizing xs with
  | _ n ih =>
    subst h
    by_cases whole : k ≤ xs.length
    · have shorter : (xs.drop k).length < xs.length := by rw [List.length_drop]; omega
      have cut := append (xs.take k) (xs.drop k) (List.length_take_of_le whole) (ih _ shorter _ rfl)
      rwa [List.take_append_drop] at cut
    · cases xs with
      | nil => exact nil
      | cons x xs => exact short _ (Nat.le_add_left 1 _) (Nat.lt_of_not_le whole)

theorem groupsOf_short {α : Type} {k : Nat} {group : List α} (h1 : 1 ≤ group.length) (hk : group.length ≤ k) :
    groupsOf k group = [group] := by
  cases group with
  | nil => simp at h1
  | cons x xs =>
    have cut : groupsOf k (x :: xs) = (x :: xs).take k :: groupsFuel k xs.length ((x :: xs).drop k) := rfl
    rw [cut, List.take_of_length_le hk, List.drop_eq_nil_of_le hk]
    cases xs <;> rfl

/-- Whole groups in front are cut off first. -/
theorem groupsOf_append_groups {α : Type} {k : Nat} (hk : 0 < k) {xs : List α} (whole : xs.length % k = 0)
    (ys : List α) : groupsOf k (xs ++ ys) = groupsOf k xs ++ groupsOf k ys := by
  induction xs using groups_induction hk with
  | nil => rfl
  | short group h1 hlt =>
    rw [Nat.mod_eq_of_lt hlt] at whole
    omega
  | append group rest hg ih =>
    rw [List.length_append, hg, Nat.add_mod_left] at whole
    rw [List.append_assoc, groupsOf_append hk hg, groupsOf_append hk hg, ih whole, List.cons_append]

/-! ## The sequence driver, one group at a time (R120, R121, R123) -/

theorem encodeBytes_format (dict : Dictionary) {bytes : List Byte} (h : bytes.length % 8 ≠ 0) (s : State) :
    encodeBytes dict false bytes s = .error .format := if_pos ⟨h, rfl⟩

theorem encodeBytes_eq_encodeBlocks (dict : Dictionary) {pad : Bool} {bytes : List Byte}
    (h : pad = false → bytes.length % 8 = 0) (s : State) :
    encodeBytes dict pad bytes s = encodeBlocks dict (groupsOf 8 bytes) s :=
  if_neg fun unaligned => unaligned.1 (h unaligned.2)

theorem encodeBlocks_cons {dict : Dictionary} {block : List Byte} {blocks : List (List Byte)} {s t u : State}
    {tokens rest : List Token} (h : encodeBlock dict block s = .ok (tokens, t))
    (hs : encodeBlocks dict blocks t = .ok (rest, u)) :
    encodeBlocks dict (block :: blocks) s = .ok (tokens ++ rest, u) := by
  simp only [encodeBlocks, h, hs]

theorem decodeTokens_format (dict : Dictionary) (allow : Bool) {tokens : List Token} (h : tokens.length % 6 ≠ 0)
    (s : State) : decodeTokens dict allow tokens s = .error .format := if_pos h

theorem decodeTokens_eq_decodeSentences (dict : Dictionary) (allow : Bool) {tokens : List Token}
    (h : tokens.length % 6 = 0) (s : State) :
    decodeTokens dict allow tokens s = decodeSentences dict allow (groupsOf 6 tokens) s := if_neg (not_not_intro h)

theorem decodeSentences_cons {dict : Dictionary} {allow : Bool} {six : List Token} {sixes : List (List Token)}
    {s t u : State} {bytes rest : List Byte}
    (h : decodeSentence dict six (allow && sixes.isEmpty) s = .ok (bytes, t))
    (hs : decodeSentences dict allow sixes t = .ok (rest, u)) :
    decodeSentences dict allow (six :: sixes) s = .ok (bytes ++ rest, u) := by
  simp only [decodeSentences, h, hs]

theorem decodeSentences_cons_head_error {dict : Dictionary} {allow : Bool} {six : List Token}
    {sixes : List (List Token)} {s : State} {e : HostError}
    (h : decodeSentence dict six (allow && sixes.isEmpty) s = .error e) :
    decodeSentences dict allow (six :: sixes) s = .error e := by
  simp only [decodeSentences, h]

theorem decodeSentences_cons_tail_error {dict : Dictionary} {allow : Bool} {six : List Token}
    {sixes : List (List Token)} {s t : State} {bytes : List Byte} {e : HostError}
    (h : decodeSentence dict six (allow && sixes.isEmpty) s = .ok (bytes, t))
    (hs : decodeSentences dict allow sixes t = .error e) :
    decodeSentences dict allow (six :: sixes) s = .error e := by
  simp only [decodeSentences, h, hs]

/-- Sentences that decode: the first does, and from where it leads the others do. -/
theorem decodeSentences_cons_inv {dict : Dictionary} {allow : Bool} {six : List Token} {sixes : List (List Token)}
    {s u : State} {all : List Byte} (h : decodeSentences dict allow (six :: sixes) s = .ok (all, u)) :
    ∃ bytes t rest, decodeSentence dict six (allow && sixes.isEmpty) s = .ok (bytes, t) ∧
      decodeSentences dict allow sixes t = .ok (rest, u) := by
  cases first : decodeSentence dict six (allow && sixes.isEmpty) s with
  | error e => cases (decodeSentences_cons_head_error first).symm.trans h
  | ok firstOut =>
    obtain ⟨bytes, t⟩ := firstOut
    cases others : decodeSentences dict allow sixes t with
    | error e => cases (decodeSentences_cons_tail_error first others).symm.trans h
    | ok othersOut =>
      obtain ⟨rest, v⟩ := othersOut
      cases (decodeSentences_cons first others).symm.trans h
      exact ⟨bytes, t, rest, rfl, others⟩

/-- Sentences before the last are decoded without a marker, so behind ones that decode the first failure is the
result. -/
theorem decodeSentences_error_behind {dict : Dictionary} {allow : Bool} {front rest : List (List Token)}
    {six : List Token} {s u : State} {bytes : List Byte} {e : HostError}
    (decoded : decodeSentences dict false front s = .ok (bytes, u))
    (fails : decodeSentence dict six (allow && rest.isEmpty) u = .error e) :
    decodeSentences dict allow (front ++ six :: rest) s = .error e := by
  induction front generalizing s bytes with
  | nil =>
    cases decoded
    exact decodeSentences_cons_head_error fails
  | cons first front ih =>
    obtain ⟨_, t, _, hfirst, hfront⟩ := decodeSentences_cons_inv decoded
    have unmarked : (allow && (front ++ six :: rest).isEmpty) = (false && front.isEmpty) := by simp
    exact decodeSentences_cons_tail_error (unmarked ▸ hfirst) (ih hfront)

/-! ## The round trips (R121, R123) -/

/-- The blocks of a byte string encode, six tokens each, and their tokens decode to the bytes on any unit; a short last
block needs padding. -/
theorem blocks_round_trip {dict : Dictionary} (hd : dict.Lawful) {pad : Bool} {bytes : List Byte}
    (aligned : pad = false → bytes.length % 8 = 0) (s : State) :
    ∃ tokens t, encodeBlocks dict (groupsOf 8 bytes) s = .ok (tokens, t) ∧
      tokens.length = 6 * ((bytes.length + 7) / 8) ∧
      ∀ s', ∃ t', decodeSentences dict pad (groupsOf 6 tokens) s' = .ok (bytes, t') := by
  induction bytes using groups_induction (k := 8) (by decide) generalizing s with
  | nil => exact ⟨[], s, rfl, rfl, fun s' => ⟨s', rfl⟩⟩
  | short block h1 hlt =>
    have padded : pad = true := Bool.eq_true_of_not_eq_false fun unpadded => by
      have := aligned unpadded
      omega
    subst padded
    have single : (block.length + 7) / 8 = 1 := by omega
    obtain ⟨t, encoded⟩ := encodeBlock_eq dict h1 hlt.le s
    have one : groupsOf 6 (blockTokens dict block ++ []) = [blockTokens dict block] :=
      groupsOf_append (by decide) (blockTokens_length dict block) []
    rw [groupsOf_short h1 hlt.le]
    refine ⟨_, t, encodeBlocks_cons encoded rfl, ?_, fun s' => ?_⟩
    · rw [List.append_nil, blockTokens_length, single]
    · obtain ⟨t', decoded⟩ := decodeSentence_blockTokens hd (marked := true) h1 hlt.le nofun s'
      have all := decodeSentences_cons (allow := true) (sixes := []) decoded rfl
      rw [List.append_nil] at all
      exact ⟨t', one ▸ all⟩
  | append block rest hb ih =>
    rw [List.length_append, hb, Nat.add_mod_left] at aligned
    obtain ⟨t, encoded⟩ := encodeBlock_eq dict (by omega) hb.le s
    obtain ⟨tokens, u, encodedRest, count, decodes⟩ := ih aligned t
    rw [groupsOf_append (by decide) hb]
    refine ⟨_, u, encodeBlocks_cons encoded encodedRest, ?_, fun s' => ?_⟩
    · rw [List.length_append, List.length_append, blockTokens_length, count, hb]
      omega
    · obtain ⟨v, decoded⟩ := decodeSentence_blockTokens hd (marked := pad && (groupsOf 6 tokens).isEmpty) (by omega)
        hb.le (fun _ => hb) s'
      obtain ⟨t', decodedRest⟩ := decodes v
      rw [groupsOf_append (by decide) (blockTokens_length dict block)]
      exact ⟨t', decodeSentences_cons decoded decodedRest⟩

/-- The driver's round trip, with the padding allowed on both sides or on neither. -/
theorem bytes_round_trip {dict : Dictionary} (hd : dict.Lawful) {pad : Bool} {bytes : List Byte}
    (aligned : pad = false → bytes.length % 8 = 0) (s s' : State) :
    ∃ tokens t t', encodeBytes dict pad bytes s = .ok (tokens, t) ∧ tokens.length = 6 * ((bytes.length + 7) / 8) ∧
      decodeTokens dict pad tokens s' = .ok (bytes, t') := by
  obtain ⟨tokens, t, encoded, count, decodes⟩ := blocks_round_trip hd aligned s
  obtain ⟨t', decoded⟩ := decodes s'
  have sixes : tokens.length % 6 = 0 := by rw [count, Nat.mul_mod_right]
  exact ⟨tokens, t, t', (encodeBytes_eq_encodeBlocks dict aligned s).trans encoded, count,
    (decodeTokens_eq_decodeSentences dict pad sixes s').trans decoded⟩

/-- Settles O58: the round trip without padding, where the blocks are all full. -/
theorem alignedBytesRoundTrip : Obligations.AlignedBytesRoundTrip := by
  intro dict bytes s s' hd aligned
  obtain ⟨tokens, t, t', encoded, count, decoded⟩ := bytes_round_trip hd (pad := false) (fun _ => aligned) s s'
  exact ⟨tokens, t, t', encoded, by omega, decoded⟩

/-- Settles O59: the round trip with padding, which asks nothing of the length. -/
theorem paddedBytesRoundTrip : Obligations.PaddedBytesRoundTrip :=
  fun _ _ s s' hd => bytes_round_trip hd (pad := true) nofun s s'

/-! ## The host's errors (R116, R123, R125) -/

/-- Six words that do not verify are an Integrity error behind any tokens that decode. Only tokens in whole sixes
decode, so the six words are a group of their own, and the last group exactly when nothing follows. -/
theorem decodeTokens_integrity {dict : Dictionary} {allow : Bool} {front rest : List Token}
    {t0 t1 t2 t3 t4 t5 : Token} {codes : Sentence} {bytes : List Byte} {s u : State}
    (decoded : decodeTokens dict false front s = .ok (bytes, u)) (sixes : rest.length % 6 = 0)
    (h : lookupSix dict t0 t1 t2 t3 t4 (if allow && rest.isEmpty then (stripMarker t5).1 else t5) = .ok codes)
    (hc : ¬ checksOut codes) :
    decodeTokens dict allow (front ++ [t0, t1, t2, t3, t4, t5] ++ rest) s = .error .integrity := by
  have front_sixes : front.length % 6 = 0 := by
    by_contra odd
    cases (decodeTokens_format dict false odd s).symm.trans decoded
  have all_sixes : (front ++ [t0, t1, t2, t3, t4, t5] ++ rest).length % 6 = 0 := by
    simp only [List.length_append, List.length_cons, List.length_nil]
    omega
  have groups : groupsOf 6 (front ++ [t0, t1, t2, t3, t4, t5] ++ rest) =
      groupsOf 6 front ++ [t0, t1, t2, t3, t4, t5] :: groupsOf 6 rest := by
    rw [List.append_assoc, groupsOf_append_groups (by decide) front_sixes, groupsOf_append (k := 6) (by decide) rfl]
  have last : (groupsOf 6 rest).isEmpty = rest.isEmpty := by cases rest <;> rfl
  rw [decodeTokens_eq_decodeSentences _ _ front_sixes] at decoded
  rw [decodeTokens_eq_decodeSentences _ _ all_sixes, groups]
  exact decodeSentences_error_behind decoded (decodeSentence_rejected (last.symm ▸ h) hc u)

/-- Settles O60, error by error. -/
theorem hostErrorsAreClassified : Obligations.HostErrorsAreClassified :=
  ⟨fun dict _ => lookupByWord_long dict, fun _ _ => lookupByWord_unknown, fun _ _ _ hd => lookupByWord_known hd,
   fun _ _ _ _ _ _ _ _ _ s h hc => decodeSentence_rejected h hc s,
   fun _ _ _ _ _ _ _ _ _ _ _ _ _ _ => decodeTokens_integrity,
   fun dict allow _ s h => decodeTokens_format dict allow h s, fun dict _ s h => encodeBytes_format dict h s⟩

end Sys2Proof.Machine

/-! # Errors (60_exceptions.md): proofs of the family's obligations -/

namespace Sys2Proof.Machine

/-! ## The order of checking (R135) -/

/-- The commands that verify the Sentence: only these can end in Integrity (60_exceptions.md R131). -/
def verifiesSentence : Instr → Bool
  | .par => false
  | .enc => false
  | .encp _ => false
  | .dec => true
  | .decp _ => true

theorem verifiesSentence_iff (i : Instr) : verifiesSentence i = true ↔ i = .dec ∨ ∃ p, i = .decp p := by
  cases i <;> simp [verifiesSentence]

/-- What a command leaves in ST.ERR, in the order of checking: its immediate first, then its Sentence. -/
theorem exec_err {i : Instr} {s t : State} (h : exec i s = .next t) :
    t.err =
      if accepted i = false then 2#2
      else if verifiesSentence i = true ∧ ¬ checksOut s.w then 1#2
      else 0#2 := by
  cases hi : accepted i with
  | false => cases (exec_refused hi s).symm.trans h; rfl
  | true =>
    rw [if_neg (by decide)]
    cases i with
    | par | enc => cases h; exact err_of_success rfl
    | encp n =>
      obtain ⟨h1, h8⟩ := (encpLegal_iff n).mp hi
      cases (execEncp_accepted h1 h8 s).symm.trans h
      exact err_of_success rfl
    | dec =>
      by_cases hw : checksOut s.w
      · cases (execDec_verified hw).symm.trans h
        rw [if_neg fun rejected => rejected.2 hw]
        exact err_of_success rfl
      · cases (execDec_rejected hw).symm.trans h
        rw [if_pos ⟨rfl, hw⟩]
        rfl
    | decp p =>
      by_cases hw : checksOut s.w
      · cases (execDecp_verified ((decpLegal_iff p).mp hi) hw).symm.trans h
        rw [if_neg fun rejected => rejected.2 hw]
        exact err_of_success rfl
      · cases (execDecp_rejected hi hw).symm.trans h
        rw [if_pos ⟨rfl, hw⟩]
        rfl

/-- Settles O51: a reserved word has no command to check, and a command's checks are an if-chain. -/
theorem errorPriority : Obligations.ErrorPriority := by
  intro c s t h
  rcases performCommand_cases c s with ⟨i, hc, run⟩ | ⟨⟨why, hc⟩, illegal⟩
  · have err := exec_err (run.symm.trans h)
    simp only [hc, Except.toOption, Except.ok.injEq, exists_eq_left', ← verifiesSentence_iff]
    split_ifs at err with refused rejected
    · simp [err, refused]
    · simp [err, refused, rejected]
    · simp [err, refused, rejected]
  · cases illegal.symm.trans h
    simp [hc, Except.toOption, State.err]

/-! ## Reissuing a command (R138) -/

theorem zextBlock_idem (v : Block) (n : Nat) : zextBlock (zextBlock v n) n = zextBlock v n := by
  simp only [zextBlock, BitVec.and_assoc, BitVec.and_self]

/-- A command run again at once: a failed one wrote ST only, which no command reads, and a successful one left operands
that give the results that are there. -/
theorem exec_again {i : Instr} {s t : State} (h : exec i s = .next t) : exec i t = .next t := by
  cases i with
  | par => cases h; rfl
  | enc => exact execEnc_again h
  | encp n =>
    rcases execEncp_cases n s with ⟨_, g⟩ | ⟨hn, g⟩ <;> cases g.symm.trans h
    · exact (exec_ignores_st (.encp n) s 2#3).trans g
    · obtain ⟨h1, h8⟩ := (encpLegal_iff n).mp hn
      rw [exec_encp, execEncp_accepted h1 h8, zextBlock_idem]
  | dec =>
    rcases execDec_cases s with ⟨_, g⟩ | ⟨hw, g⟩ <;> cases g.symm.trans h
    · exact (exec_ignores_st .dec s 1#3).trans g
    · exact execDec_verified hw
  | decp p =>
    rcases execDecp_cases p s with ⟨_, g⟩ | ⟨_, _, g⟩ | ⟨hp, hw, g⟩ <;> cases g.symm.trans h
    · exact (exec_ignores_st (.decp p) s 2#3).trans g
    · exact (exec_ignores_st (.decp p) s 1#3).trans g
    · exact execDecp_verified ((decpLegal_iff p).mp hp) hw

/-- Settles O53: a word that decodes runs its command again, and a reserved one is reserved in every state. -/
theorem reissuingChangesNothing : Obligations.ReissuingChangesNothing := by
  intro c s t h
  cases hc : decode c with
  | ok i =>
    rw [performCommand_ok hc] at h ⊢
    exact exec_again h
  | error why =>
    cases (performCommand_error hc s).symm.trans h
    exact performCommand_error hc _

/-! ## Reserved words and completion (R133, R142) -/

/-- Settles O7: the low byte of the data is the command word. -/
theorem reservedWordRaisesIllegalCommand : Obligations.ReservedWordRaisesIllegalCommand := by
  intro s data why reserved
  rw [regWrite_cmd]
  exact performCommand_error reserved s

/-- Settles O8: the step performs the access at the head of the list, which leaves the rest of the list alone. -/
theorem everyStepCompletes : Obligations.EveryStepCompletes := by
  intro s
  cases hp : s.pending with
  | nil => exact ⟨⟨s, step_nil hp, hp⟩, fun _ => step_nil hp⟩
  | cons a rest =>
    obtain ⟨t, performs, behind, _⟩ := perform_next a { s with pending := rest }
    exact ⟨⟨t, (step_cons hp).trans performs, behind⟩, fun none_left => nomatch none_left⟩

end Sys2Proof.Machine
